-- ==== Sys2Proof/Word.lean ====
section
/-! DEFINITION. The widths of the values the spec names (00_scope.md R6, R9), and nothing else. -/

namespace Sys2Proof

/-- `u2`: an S-box row, an opcode (00_scope.md R9, 40_primitives.md R66). -/
abbrev U2 := BitVec 2

/-- `u4`: a nibble; a half block or a key half (00_scope.md R6). -/
abbrev U4 := BitVec 4

/-- `u6`: a round key (00_scope.md R6). -/
abbrev U6 := BitVec 6

/-- `u8`: a block or a master key (00_scope.md R6). -/
abbrev U8 := BitVec 8

/-- The 10-bit command word (30_encoding.md R50). -/
abbrev CmdWord := BitVec 10

/-- The 96 bits of the port `rk_bus` (10_state.md R28). -/
abbrev RkBus := BitVec 96

/-- The RoundKeySequence: 16 round keys of 6 bits (10_state.md R21). -/
abbrev RoundKeys := Vector U6 16

/-- A 4 x 16 table of 4-bit entries, read as a total function of row and column (40_primitives.md R68). -/
abbrev SboxTable := U2 → U4 → U4

end Sys2Proof
end

