-- ==== Sys2Proof/Syntax.lean ====
section
/-! DEFINITION. The commands: one constructor per row of spec/opcode_table.json. -/

namespace Sys2Proof

/-- The command set "is exactly KEY, ENC and DEC" (43_block_ops.md R109). The operand is `data[7:0]`, "used as it
stands, as one unsigned 8-bit value" (30_encoding.md R51). -/
inductive Instr where
  /-- KEY: `data` is the master key (41_key_schedule.md R84). -/
  | key (data : U8)
  /-- ENC: `data` is the plaintext block (43_block_ops.md R102). -/
  | enc (data : U8)
  /-- DEC: `data` is the ciphertext block (43_block_ops.md R103). -/
  | dec (data : U8)
  deriving DecidableEq, Repr

/-- The operand byte of a command. -/
def Instr.data : Instr → U8
  | .key d => d
  | .enc d => d
  | .dec d => d

end Sys2Proof
end

