-- ==== Sys2Proof/WellFormed.lean ====
section
/-! DEFINITION. What makes a command well formed. A term of `Instr` carries its operand at its exact width, so each
one is well formed (10_state.md R32: an over-wide value "cannot be written down"). What CAN be ill formed is a command
as the host's software holds it, two unbounded numbers, before it stands on the ports: `RawCommand`. Its three
checks are the spec's precondition on widths (60_exceptions.md R110, 92_eei_decisions.md D12) and the reserved opcode
(30_encoding.md R53). -/

namespace Sys2Proof

/-- Every term of `Instr` is a legal command: "all 256 values of `data` are legal with every opcode"
(30_encoding.md R52). -/
def Instr.wellFormed : Instr → Bool
  | .key _ => true
  | .enc _ => true
  | .dec _ => true

/-- A command as numbers, before it is put on the ports `cmd_op` and `cmd_data`. -/
structure RawCommand where
  op : Nat
  data : Nat
  deriving DecidableEq, Repr

/-- The opcode fits the 2-bit port `cmd_op` (10_state.md R26, R32). -/
def RawCommand.opFits (c : RawCommand) : Bool := decide (c.op < 4)

/-- The operand fits the 8-bit port `cmd_data` (10_state.md R26, R32). -/
def RawCommand.dataFits (c : RawCommand) : Bool := decide (c.data < 256)

/-- The opcode is not the reserved code 00 (30_encoding.md R53). -/
def RawCommand.opNamed (c : RawCommand) : Bool := decide (c.op ≠ 0)

/-- All three checks. -/
def RawCommand.wellFormed (c : RawCommand) : Bool := c.opFits && c.dataFits && c.opNamed

/-- The command word of a raw command whose numbers fit their ports: `word[9:8] = op`, `word[7:0] = data`
(30_encoding.md R50). A number too wide for its port cannot be presented (10_state.md R32). -/
def RawCommand.word? (c : RawCommand) : Option CmdWord :=
  if c.opFits && c.dataFits then some (BitVec.ofNat 2 c.op ++ BitVec.ofNat 8 c.data) else none

end Sys2Proof
end

