-- ==== Sys2Proof/Decode.lean ====
section
/-! DEFINITION. The decoder of command words, the encoder, and the host's view of the decoder
(30_encoding.md R50 to R56). -/

namespace Sys2Proof

/-- Why a word is no command. -/
inductive DecodeError where
  /-- `op = 00`: "It names no operation, and the spec gives it no behaviour" (30_encoding.md R53). -/
  | reservedOp
  deriving DecidableEq, Repr

/-- `word[9:8]`, the opcode (30_encoding.md R50). -/
def opField (w : CmdWord) : U2 := w.extractLsb' 8 2

/-- `word[7:0]`, the operand (30_encoding.md R50). -/
def dataField (w : CmdWord) : U8 := w.extractLsb' 0 8

/-- The mask of every row of the opcode map (30_encoding.md R52). -/
def opMask : CmdWord := 0x300#10

/-- The `match` column of KEY, ENC and DEC (30_encoding.md R52). -/
def keyMatch : CmdWord := 0x100#10
def encMatch : CmdWord := 0x200#10
def decMatch : CmdWord := 0x300#10

/-- "A word is decoded by computing `word & 0x300` and comparing it with each `match`" (30_encoding.md R52). Total on
the 1024 words (R55); the one code left over, `op = 00`, is rejected by name (R53). -/
def decode (w : CmdWord) : Except DecodeError Instr :=
  if w &&& opMask = keyMatch then .ok (.key (dataField w))
  else if w &&& opMask = encMatch then .ok (.enc (dataField w))
  else if w &&& opMask = decMatch then .ok (.dec (dataField w))
  else .error .reservedOp

/-- The opcode of a command: "opcode 1 for KEY, 2 for ENC and 3 for DEC" (30_encoding.md R56, R52). -/
def Instr.opcode : Instr → U2
  | .key _ => 0b01#2
  | .enc _ => 0b10#2
  | .dec _ => 0b11#2

/-- The word of a command, `{op, data}` (30_encoding.md R50). -/
def encode (i : Instr) : CmdWord := i.opcode ++ i.data

/-- The word that the low `nbits` bits of `w` put on the two command ports: bits 9:8 on `cmd_op`, bits 7:0 on
`cmd_data` (10_state.md R27). None where a bit above bit 9 is set: no port carries it (10_state.md R32; log 15). -/
def portWord (nbits w : Nat) : Option CmdWord :=
  RawCommand.word? ⟨w % 2 ^ nbits / 256, w % 2 ^ nbits % 256⟩

/-- What the decoder reads from a table word. -/
def decodeTableWord (nbits w : Nat) : Option Instr :=
  match portWord nbits w with
  | none => none
  | some word =>
    match decode word with
    | .ok i => some i
    | .error .reservedOp => none

end Sys2Proof
end

