-- ==== Sys2Proof/Config.lean ====
section
/-! DEFINITION. The parameters the spec leaves open (00_scope.md R7): the S-box contents and the two
latencies. None has a body, so no proof can rest on a value of one. -/

namespace Sys2Proof

/-- `LAT_KEY` and `LAT_BLOCK`, in clock cycles (00_scope.md R7). -/
structure Timing where
  /-- cycles from accepting KEY to its completion -/
  latKey : Nat
  /-- cycles from accepting ENC or DEC to its completion -/
  latBlock : Nat
  deriving DecidableEq, Repr

/-- "natural number, at least 1", for both latencies (00_scope.md R7). -/
abbrev Timing.Positive (tm : Timing) : Prop := 1 ≤ tm.latKey ∧ 1 ≤ tm.latBlock

namespace Config

/-- `SBOX_TABLE` of the hardware: "A proof may assume nothing of it beyond totality and the 4-bit width"
(40_primitives.md R68). A free value of the build; log 1. -/
opaque sboxTable : SboxTable

/-- `LAT_KEY` less one, unknown (00_scope.md R7; log 2). -/
opaque latKeyLessOne : Nat

/-- `LAT_BLOCK` less one, unknown (00_scope.md R7; log 2). -/
opaque latBlockLessOne : Nat

/-- The latencies of the hardware: unknown, each at least 1 (00_scope.md R7; log 2). -/
def timing : Timing := ⟨latKeyLessOne + 1, latBlockLessOne + 1⟩

end Config

end Sys2Proof
end

