-- ==== Sys2Proof/Machine/Operands.lean ====
section
/-! DEFINITION. How a byte splits into halves and how halves make a byte (20_memory.md R41 to R44), and the reading of
a list of bits as a value. -/

namespace Sys2Proof.Machine

/-- High and low nibble of a byte: `L = block[7:4]`, `R = block[3:0]`, and likewise C and D of the permuted key
(20_memory.md R42, R43). -/
def splitByte (b : U8) : U4 × U4 := (b.extractLsb' 4 4, b.extractLsb' 0 4)

/-- The output assembly `{R, L}`: "the final combination places the *post-loop* `R` in the high nibble and `L` in the
low nibble" (20_memory.md R44). -/
def joinSwapped (h : U4 × U4) : U8 := h.2 ++ h.1

/-- The `n`-bit value whose bits, most significant first, are the list (00_scope.md R8). -/
def ofBitsMsb (n : Nat) (bits : List Bool) : BitVec n :=
  BitVec.ofNat n (bits.foldl (fun acc b => 2 * acc + b.toNat) 0)

end Sys2Proof.Machine
end

