-- ==== Sys2Proof/Machine/Tables.lean ====
section
/-! DEFINITION. The fixed tables of the cipher (00_scope.md R6), each held once so that a correction touches one place
(93_implementation_defined.md I10; log 13), and the spec's two made-up test tables (95_test_vectors.md). -/

namespace Sys2Proof.Machine

/-- SHIFTS: how many one-bit rotations round i makes (00_scope.md R6, 41_key_schedule.md R81). -/
def shifts : List Nat := [1, 1, 2, 2, 2, 2, 2, 2, 1, 2, 2, 2, 2, 2, 2, 1]

/-- EXP_POS: positions counted from the most significant bit of the nibble (00_scope.md R6, 40_primitives.md R64). -/
def expPos : List Nat := [3, 0, 1, 2, 3, 1]

/-- PC2_POS: 1-indexed positions from the least significant bit (00_scope.md R6, 40_primitives.md R69). -/
def pc2Pos : List Nat := [1, 2, 3, 4, 5, 6]

/-- TEST_SBOX_A of 95_test_vectors.md, a made-up table, not the hardware's. The machine never uses it. -/
def testSboxA : SboxTable := fun r c => BitVec.ofNat 4 (5 * c.toNat + 11 * r.toNat + 3)

/-- `Z` of 95_test_vectors.md, the all-zero table, not the hardware's. The machine never uses it. -/
def testSboxZ : SboxTable := fun _ _ => 0#4

end Sys2Proof.Machine
end

