-- ==== Sys2Proof/Machine/Primitives.lean ====
section
/-! DEFINITION. The leaf sub-blocks, combinational and total (40_primitives.md). -/

namespace Sys2Proof.Machine

/-- bit_rotator_4b: `rotl4(v) = {v[2:0], v[3]}` (40_primitives.md R60). -/
def rotl4 (v : U4) : U4 := v.extractLsb' 0 3 ++ v.extractLsb' 3 1

/-- BitRotate8: `rotl8(v) = {v[6:0], v[7]}` (40_primitives.md R62). -/
def rotl8 (v : U8) : U8 := v.extractLsb' 0 7 ++ v.extractLsb' 7 1

/-- PC1 is `rotl8` applied to the master key (40_primitives.md R63). -/
def pc1 (key : U8) : U8 := rotl8 key

/-- bit_expander_4to6: `out[5 - i] = v[3 - EXP_POS[i]]` (40_primitives.md R64; the list wins over the prose,
90_conflicts.md C1; log 12). -/
def expand (v : U4) : U6 := ofBitsMsb 6 (expPos.map fun p => v.getLsbD (3 - p))

/-- `row : u2 = {v[5], v[0]}` (40_primitives.md R66). -/
def sboxRow (v : U6) : U2 := v.extractLsb' 5 1 ++ v.extractLsb' 0 1

/-- `col : u4 = v[4:1]` (40_primitives.md R66). -/
def sboxCol (v : U6) : U4 := v.extractLsb' 1 4

/-- sbox_6to4 over a table: `SBOX_TABLE[{v[5], v[0]}][v[4:1]]` (40_primitives.md R67). -/
def sbox (T : SboxTable) (v : U6) : U4 := T (sboxRow v) (sboxCol v)

/-- permuter_6b: `out[5 - i] = v[PC2_POS[i] - 1]` (40_primitives.md R69). -/
def pc2 (v : U6) : U6 := ofBitsMsb 6 (pc2Pos.map fun p => v.getLsbD (p - 1))

end Sys2Proof.Machine
end

