-- ==== Sys2Proof/Machine/Feistel.lean ====
section
/-! DEFINITION. The round function and feistel_round_16x (42_feistel_round.md). -/

namespace Sys2Proof.Machine

/-- `f(r, k) = rotl4(sbox(expand(r) ^ k))` (42_feistel_round.md R90). -/
def roundFunction (T : SboxTable) (r : U4) (k : U6) : U4 := rotl4 (sbox T (expand r ^^^ k))

/-- `round(L, R, k) = (R, L ^ f(R, k))` (42_feistel_round.md R91). -/
def feistelRound (T : SboxTable) (h : U4 × U4) (k : U6) : U4 × U4 := (h.2, h.1 ^^^ roundFunction T h.2 k)

/-- The order in which the round keys are used (42_feistel_round.md R93). -/
inductive KeyOrder where
  | forward
  | reverse
  deriving DecidableEq, Repr

/-- `j = (order == forward) ? i : 15 - i` (42_feistel_round.md R93). -/
def KeyOrder.index : KeyOrder → Fin 16 → Fin 16
  | .forward, i => i
  | .reverse, i => ⟨15 - i.val, by omega⟩

/-- `rounds16(L, R, order)`: for i = 0, ..., 15, one round with `RK[j]` (42_feistel_round.md R93). -/
def rounds16 (T : SboxTable) (rk : RoundKeys) (order : KeyOrder) (h : U4 × U4) : U4 × U4 :=
  (List.finRange 16).foldl (fun lr i => feistelRound T lr rk[order.index i]) h

end Sys2Proof.Machine
end

