-- ==== Sys2Proof/Machine/State.lean ====
section
/-! DEFINITION. The state of one mini_DES instance (10_state.md R20) and the reasons a step can stop. -/

namespace Sys2Proof.Machine

/-- The spec's fault codes (60_exceptions.md R110). A model fault is no hardware trap: it marks a run to which the
spec gives no meaning. Each is SAFE: the model stops where a chip would go on. -/
inductive Fault where
  /-- `F_RESERVED_OP`: raised by an accepted command word with `op = 00` (60_exceptions.md R111). Safe. -/
  | reservedOp
  /-- `F_KEY_NOT_LOADED`: raised by ENC and DEC while `KV = 0` (60_exceptions.md R112). Safe. -/
  | keyNotLoaded
  /-- `F_UNWRITTEN_READ`: raised by observing `dout` while it holds no value, or `rk_bus` while it holds none
  (60_exceptions.md R113, 10_state.md R36, 93_implementation_defined.md I6). No command raises it. Safe. -/
  | unwrittenRead
  deriving DecidableEq, Repr

/-- Refusals. The model refuses no command. -/
inductive Refusal where
  /-- Would be raised by an arm of exec that has no meaning yet; no arm raises it. Safe. -/
  | notModelled (mnemonic : String)
  deriving DecidableEq, Repr

/-- The output ports (10_state.md R26). -/
inductive OutPort where
  | cmdReady
  | dout
  | doutValid
  | keyValid
  | rkBus
  deriving DecidableEq, Repr

/-- What the host does next: the elements of its list (10_state.md R33, 70_reset_and_hazards.md R142). -/
inductive HostEvent where
  /-- present a command word until it is accepted (70_reset_and_hazards.md R136) -/
  | command (word : CmdWord)
  /-- hold `rst = 1` for at least one edge (70_reset_and_hazards.md R130) -/
  | reset
  /-- read an output port between commands (70_reset_and_hazards.md R139) -/
  | read (port : OutPort)
  deriving DecidableEq, Repr

/-- An accepted command that has not completed (70_reset_and_hazards.md R138). -/
structure InFlight where
  instr : Instr
  /-- rising edges until it completes; the last of them is edge `t + LAT` -/
  remaining : Nat
  deriving DecidableEq, Repr

/-- The state. `rk`, `kv`, `dout`, `dv` and `fault` are the spec's (10_state.md R20); `inFlight` is the command in
flight between two edges (20_memory.md R48, 70_reset_and_hazards.md R138); `host` is the MODEL's own field, the host's
list (10_state.md R33; log 6). -/
structure State where
  /-- `RK[0..15]`, the round-key register file (10_state.md R21) -/
  rk : RoundKeys
  /-- `KV`, key valid (10_state.md R22) -/
  kv : Bool
  /-- `DOUT`, the result register (10_state.md R23) -/
  dout : U8
  /-- `DV`, result valid (10_state.md R24) -/
  dv : Bool
  /-- `FAULT`, the model-only fault record (10_state.md R25) -/
  fault : Option Fault
  /-- the command in flight, if any -/
  inFlight : Option InFlight
  /-- what the host does next, first element first -/
  host : List HostEvent
  deriving DecidableEq, Repr

/-- The machine right after reset (10_state.md R35, 70_reset_and_hazards.md R131). `kv`, `dv`, `fault` and `inFlight` are
the spec's values. `rk` and `dout` are "unwritten" there: DESIGN CHOICE zero, unsafe (logs 3, 4); no step and no
observation reads them before they are written. `host` is empty: nothing is placed (log 6). -/
def State.reset : State where
  rk := Vector.replicate 16 0#6
  kv := false
  dout := 0#8
  dv := false
  fault := none
  inFlight := none
  host := []

end Sys2Proof.Machine
end

