-- ==== Sys2Proof/Machine/Ops.lean ====
section
/-! DEFINITION. The named operations on the registers, the fault record and reset. -/

namespace Sys2Proof.Machine

/-- KEY's write: `RK <- ks` and `KV <- 1`, together (41_key_schedule.md R84, 20_memory.md R47). -/
def State.loadKeys (ks : RoundKeys) (s : State) : State := { s with rk := ks, kv := true }

/-- ENC's and DEC's write: `DOUT <- v` and `DV <- 1`, together (43_block_ops.md R102, R103, 20_memory.md R47). -/
def State.storeResult (v : U8) (s : State) : State := { s with dout := v, dv := true }

/-- What ENC and DEC share: `KV` is checked before any state is written (43_block_ops.md R102, R103;
60_exceptions.md R112). -/
def blockCommand (result : RoundKeys → U8) (s : State) : Host.Outcome State Fault Refusal :=
  if s.kv then .next (s.storeResult (result s.rk)) else .fault .keyNotLoaded

/-- The number of a fault code (60_exceptions.md R110). -/
def Fault.code : Fault → Nat
  | .reservedOp => 1
  | .keyNotLoaded => 2
  | .unwrittenRead => 3

/-- TAKING A FAULT: `FAULT <- code`, no other state is written (60_exceptions.md R110, R115), and a code once held stays
(10_state.md R25). -/
def State.recordFault (r : Fault) (s : State) : State :=
  match s.fault with
  | some _ => s
  | none => { s with fault := some r }

/-- The state in which a step leaves the block: a fault writes the fault record and nothing else
(60_exceptions.md R110; log 5). -/
def settle (s : State) : Host.Outcome State Fault Refusal → State
  | .next t => t
  | .fault r => s.recordFault r
  | .refused _ => s

/-- RESET, the only way out of a faulted state (60_exceptions.md R116): every register of the block as in `State.reset`,
any command in flight abandoned (70_reset_and_hazards.md R131, R132). The host's list is the host's and stays. -/
def State.applyReset (s : State) : State := { State.reset with host := s.host }

/-- A command is accepted and begins its `n` edges (70_reset_and_hazards.md R138). -/
def State.startCommand (i : Instr) (n : Nat) (s : State) : State := { s with inFlight := some ⟨i, n⟩ }

/-- The command in flight leaves: by completing or because it is abandoned. -/
def State.clearInFlight (s : State) : State := { s with inFlight := none }

/-- The same block with another list of the host's events still to come (log 6). -/
def State.withHost (es : List HostEvent) (s : State) : State := { s with host := es }

end Sys2Proof.Machine
end

