-- ==== Sys2Proof/Machine/Block.lean ====
section
/-! DEFINITION. Block encryption and decryption, and the commands ENC and DEC (43_block_ops.md). -/

namespace Sys2Proof.Machine

/-- `encryptBlock(pt)` under a table and the keys of `RK` (43_block_ops.md R100). -/
def encryptBlock (T : SboxTable) (rk : RoundKeys) (pt : U8) : U8 :=
  joinSwapped (rounds16 T rk .forward (splitByte pt))

/-- `decryptBlock(ct)`: the same with the keys in reverse order (43_block_ops.md R101). -/
def decryptBlock (T : SboxTable) (rk : RoundKeys) (ct : U8) : U8 :=
  joinSwapped (rounds16 T rk .reverse (splitByte ct))

/-- ENC (43_block_ops.md R102), with the hardware's table (log 1). -/
def execEnc (data : U8) (s : State) : Host.Outcome State Fault Refusal :=
  blockCommand (fun rk => encryptBlock Config.sboxTable rk data) s

/-- DEC (43_block_ops.md R103), with the hardware's table (log 1). -/
def execDec (data : U8) (s : State) : Host.Outcome State Fault Refusal :=
  blockCommand (fun rk => decryptBlock Config.sboxTable rk data) s

end Sys2Proof.Machine
end

