-- ==== Sys2Proof/Machine/KeySchedule.lean ====
section
/-! DEFINITION. key_scheduler_8b and the KEY command (41_key_schedule.md). -/

namespace Sys2Proof.Machine

/-- Step 3 of one round: rotate both halves `n` times (41_key_schedule.md R81). -/
def rotateHalves : Nat → U4 × U4 → U4 × U4
  | 0, h => h
  | n + 1, h => rotateHalves n (rotl4 h.1, rotl4 h.2)

/-- Steps 4 and 5: `pc2({C[2:0], D[2:0]})` (41_key_schedule.md R81). -/
def roundKeyOf (h : U4 × U4) : U6 := pc2 (h.1.extractLsb' 0 3 ++ h.2.extractLsb' 0 3)

/-- The loop over the rounds: "rotations accumulate across rounds", and the rotation comes before the round's key
(41_key_schedule.md R81). -/
def roundKeysFrom : List Nat → U4 × U4 → List U6
  | [], _ => []
  | n :: ns, h => roundKeyOf (rotateHalves n h) :: roundKeysFrom ns (rotateHalves n h)

/-- One round key per entry of the rotation table. -/
theorem roundKeysFrom_length (ns : List Nat) (h : U4 × U4) : (roundKeysFrom ns h).length = ns.length := by
  induction ns generalizing h with
  | nil => rfl
  | cons n ns ih => simp [roundKeysFrom, ih]

/-- `generate(key)`: the 16 round keys of a master key (41_key_schedule.md R80, R81). -/
def generate (key : U8) : RoundKeys :=
  ⟨(roundKeysFrom shifts (splitByte (pc1 key))).toArray, by simp [roundKeysFrom_length, shifts]⟩

/-- KEY (41_key_schedule.md R84): all 16 entries of `RK` and `KV <- 1`, in one atomic step; `DOUT` and `DV` are not
written. Legal in every state. -/
def execKey (data : U8) (s : State) : Host.Outcome State Fault Refusal :=
  .next (s.loadKeys (generate data))

end Sys2Proof.Machine
end

