-- ==== Sys2Proof/Machine/Dispatch.lean ====
section
/-! DEFINITION. The meaning of each accepted command: one arm per constructor of Instr. -/

namespace Sys2Proof.Machine

/-- What an ACCEPTED command does. Whether a command is accepted is the step's and the edge's affair. -/
def exec (i : Instr) (s : State) : Host.Outcome State Fault Refusal :=
  match i with
  | .key data => Sys2Proof.Machine.execKey data s
  | .enc data => Sys2Proof.Machine.execEnc data s
  | .dec data => Sys2Proof.Machine.execDec data s

end Sys2Proof.Machine
end

