-- ==== Sys2Proof/Machine/Flags.lean ====
section
/-! DEFINITION. What the flags and the in-flight command show at the ports (10_state.md R22, R24, R29;
70_reset_and_hazards.md R130, R133, R138). -/

namespace Sys2Proof.Machine

/-- ENC and DEC read `RK`; KEY does not (43_block_ops.md R102, R103, 41_key_schedule.md R84). -/
def readsKeys : Instr → Bool
  | .key _ => false
  | .enc _ => true
  | .dec _ => true

/-- A KEY is in flight. -/
def State.keyInFlight (s : State) : Bool :=
  match s.inFlight with
  | some f => !readsKeys f.instr
  | none => false

/-- An ENC or a DEC is in flight. -/
def State.blockInFlight (s : State) : Bool :=
  match s.inFlight with
  | some f => readsKeys f.instr
  | none => false

/-- The port `key_valid`: `KV` (10_state.md R29), but 0 "while a KEY is in flight" (70_reset_and_hazards.md R138;
log 8). -/
def State.keyValid (s : State) : Bool := s.kv && !s.keyInFlight

/-- The port `dout_valid`: `DV` (10_state.md R29), but 0 "while an ENC or DEC is in flight" (10_state.md R24,
70_reset_and_hazards.md R138; log 8). -/
def State.doutValid (s : State) : Bool := s.dv && !s.blockInFlight

/-- The port `cmd_ready`: 0 while `rst = 1` (70_reset_and_hazards.md R130) and while a command is in flight (R138), else 1
(R133, 60_exceptions.md R124). -/
def State.cmdReady (rst : Bool) (s : State) : Bool := !rst && s.inFlight.isNone

end Sys2Proof.Machine
end

