-- ==== Sys2Proof/Machine/Ports.lean ====
section
/-! DEFINITION. Observing the output ports (10_state.md R26 to R29, R36; 60_exceptions.md R113). -/

namespace Sys2Proof.Machine

/-- What a read of a port gives: 1, 8 or 96 bits (20_memory.md R46). -/
inductive PortValue where
  | bit (b : Bool)
  | byte (v : U8)
  | bus (v : RkBus)
  deriving DecidableEq, Repr

/-- `rk_bus[6i+5 : 6i] = RK[i]` (10_state.md R28): `RK[15]` is the most significant entry. -/
def rkBusOf (rk : RoundKeys) : RkBus :=
  BitVec.ofNat 96 (rk.toList.foldr (fun k acc => 64 * acc + k.toNat) 0)

/-- The value an observation of a port gives, with `rst` at the level given. `dout` and `rk_bus` fault while they hold no
value (60_exceptions.md R113, 10_state.md R36, 70_reset_and_hazards.md R138); `dout_valid` and `key_valid` "can always be
read and never fault". `cmd_ready` after a fault is not described (93_implementation_defined.md I9): the read stops with
the code held (log 9). -/
def observe (rst : Bool) (p : OutPort) (s : State) : Host.Outcome PortValue Fault Refusal :=
  match p with
  | .cmdReady =>
    match rst, s.fault with
    | false, some r => .fault r
    | _, _ => .next (.bit (s.cmdReady rst))
  | .dout => if s.doutValid then .next (.byte s.dout) else .fault .unwrittenRead
  | .doutValid => .next (.bit s.doutValid)
  | .keyValid => .next (.bit s.keyValid)
  | .rkBus => if s.keyValid then .next (.bus (rkBusOf s.rk)) else .fault .unwrittenRead

end Sys2Proof.Machine
end

