-- ==== Sys2Proof/Machine/HostInterface.lean ====
section
/-! DEFINITION. The transaction-level machine: what one element of the host's list does, from acceptance through
completion (70_reset_and_hazards.md R139, 92_eei_decisions.md D1; log 7). -/

namespace Sys2Proof.Machine

/-- A command word is accepted: decode runs first, so a reserved word faults whatever `KV` is (60_exceptions.md R111,
R114); a faulted block "takes no further command steps" (10_state.md R25; log 11). -/
def takeCommand (word : CmdWord) (s : State) : Host.Outcome State Fault Refusal :=
  match s.fault with
  | some r => .fault r
  | none =>
    match decode word with
    | .ok i => exec i s
    | .error .reservedOp => .fault .reservedOp

/-- A read of a port changes no state (20_memory.md R46); it faults where the observation does (log 16). -/
def takeRead (p : OutPort) (s : State) : Host.Outcome State Fault Refusal :=
  match observe false p s with
  | .next _ => .next s
  | .fault r => .fault r
  | .refused r => .refused r

/-- What one element of the host's list does to a block with no command in flight. -/
def stepEvent (e : HostEvent) (s : State) : Host.Outcome State Fault Refusal :=
  match e with
  | .reset => .next s.applyReset
  | .command word => takeCommand word s
  | .read p => takeRead p s

/-- The command in flight completes: all its state writes take effect together (70_reset_and_hazards.md R138). -/
def completeInFlight (f : InFlight) (s : State) : Host.Outcome State Fault Refusal :=
  match s.fault with
  | some r => .fault r
  | none => exec f.instr s.clearInFlight

/-- Nothing is presented: the block is idle and "holds its state" (60_exceptions.md R124); a faulted run has ended
(70_reset_and_hazards.md R142; log 19). -/
def stayIdle (s : State) : Host.Outcome State Fault Refusal :=
  match s.fault with
  | some r => .fault r
  | none => .next s

/-- One step. A reset next in the list abandons a command in flight (70_reset_and_hazards.md R132; log 10); otherwise a
command in flight completes before the host's next element is taken ("at most one command in flight", 20_memory.md
R48). -/
def stepHost (s : State) : Host.Outcome State Fault Refusal :=
  match s.host, s.inFlight with
  | .reset :: es, _ => stepEvent .reset (s.withHost es)
  | _, some f => completeInFlight f s
  | e :: es, none => stepEvent e (s.withHost es)
  | [], none => stayIdle s

/-- The block ready to accept, with a word next in the host's list (log 6). -/
def State.presentWord (word : CmdWord) (s : State) : State :=
  { s with host := .command word :: s.host, inFlight := none, fault := none }

/-- As `presentWord`, for a table word; a word no port carries is not placed (10_state.md R32; log 15). -/
def State.presentTableWord (nbits w : Nat) (s : State) : State :=
  match portWord nbits w with
  | some word => s.presentWord word
  | none => s

end Sys2Proof.Machine
end

