-- ==== Sys2Proof/Machine/Step.lean ====
section
/-! DEFINITION. The step of the machine and the placing of an instruction where it fetches. -/

namespace Sys2Proof.Machine

/-- One step: the next element of the host's list (10_state.md R33, 70_reset_and_hazards.md R142). -/
def step (s : State) : Host.Outcome State Fault Refusal := stepHost s

/-- `s` with a command word as the host's next command, so that the next step accepts exactly it (log 6). -/
def State.withFetchWord (s : State) (nbits w : Nat) : State := s.presentTableWord nbits w

end Sys2Proof.Machine
end

