-- ==== Sys2Proof/Machine/Assembler.lean ====
section
/-! DEFINITION. Assembly lines (30_encoding.md R56): "a mnemonic, one space, then the 8-bit operand as `0x` followed by
exactly two hex digits". The host forms them; the block never sees text (00_scope.md R5). -/

namespace Sys2Proof.Machine

/-- The digit that writes a nibble, upper case as in the spec's examples: code points 48 to 57 are the digits 0 to 9, and 65
to 70 the letters A to F. -/
def hexDigit (v : U4) : Char := Char.ofNat (v.toNat + bif v.ult 10#4 then 48 else 55)

/-- The nibble that a digit writes, if any: the digit writer read backwards, in either case of letter (log 14). -/
def hexNibble (c : Char) : Option U4 :=
  ((List.finRange 16).map BitVec.ofFin).find? fun v => hexDigit v == c.toUpper

/-- A mnemonic and its operand: "Mnemonics are not case-sensitive" (30_encoding.md R56). -/
def instrOfMnemonic (m : List Char) (data : U8) : Option Instr :=
  let up := m.map Char.toUpper
  if up = ['K', 'E', 'Y'] then some (.key data)
  else if up = ['E', 'N', 'C'] then some (.enc data)
  else if up = ['D', 'E', 'C'] then some (.dec data)
  else none

/-- The line up to its comment: "Text after `;` is a comment" (30_encoding.md R56). -/
def stripComment (line : List Char) : List Char := line.takeWhile (· ≠ ';')

/-- One line to its command word, `(opcode << 8) | operand`; every other line is refused (30_encoding.md R56). Blanks may
follow the operand, as in the spec's examples (log 14). The first hex digit is the high nibble (20_memory.md R45). -/
def assembleLine (line : List Char) : Option CmdWord :=
  match stripComment line with
  | m1 :: m2 :: m3 :: ' ' :: '0' :: 'x' :: h :: l :: rest =>
    match hexNibble h, hexNibble l with
    | some high, some low =>
      if rest.all (· = ' ') then (instrOfMnemonic [m1, m2, m3] (high ++ low)).map encode else none
    | _, _ => none
  | _ => none

/-- The mnemonic of a command (30_encoding.md R52). -/
def mnemonicOf : Instr → List Char
  | .key _ => ['K', 'E', 'Y']
  | .enc _ => ['E', 'N', 'C']
  | .dec _ => ['D', 'E', 'C']

/-- The line of a command, as 30_encoding.md R56 writes it. -/
def assemblyLine (i : Instr) : List Char :=
  mnemonicOf i ++ [' ', '0', 'x', hexDigit (i.data.extractLsb' 4 4), hexDigit (i.data.extractLsb' 0 4)]

end Sys2Proof.Machine
end

