-- ==== Sys2Proof/Machine/Cycle.lean ====
section
/-! DEFINITION. The cycle-level reading of reset and handshake: one call of `edge` is one rising edge of `clk`
(70_reset_and_hazards.md R130 to R138; log 7). The latencies are an argument (00_scope.md R7). -/

namespace Sys2Proof.Machine

/-- The input ports at one rising edge of `clk` (10_state.md R26). -/
structure Inputs where
  rst : Bool
  cmdValid : Bool
  cmdOp : U2
  cmdData : U8
  deriving DecidableEq, Repr

/-- The command word on the ports: `{cmd_op, cmd_data}` (10_state.md R27). -/
def Inputs.word (inp : Inputs) : CmdWord := inp.cmdOp ++ inp.cmdData

/-- `LAT`: `LAT_KEY` for KEY, `LAT_BLOCK` for ENC and DEC (70_reset_and_hazards.md R138). -/
def latency (tm : Timing) : Instr → Nat
  | .key _ => tm.latKey
  | .enc _ => tm.latBlock
  | .dec _ => tm.latBlock

/-- "A command is accepted on a rising edge of `clk` where `rst = 0`, `cmd_valid = 1` and `cmd_ready = 1`"
(70_reset_and_hazards.md R136). -/
def accepts (inp : Inputs) (s : State) : Bool := inp.cmdValid && s.cmdReady inp.rst

/-- The acceptance edge: a word or command the spec gives no meaning faults here (60_exceptions.md R111, R112; log 20);
any other command is in flight for its latency (70_reset_and_hazards.md R138). -/
def acceptEdge (tm : Timing) (word : CmdWord) (s : State) : Host.Outcome State Fault Refusal :=
  match decode word with
  | .error .reservedOp => .fault .reservedOp
  | .ok i =>
    match exec i s with
    | .next _ => .next (s.startCommand i (latency tm i))
    | .fault r => .fault r
    | .refused r => .refused r

/-- An edge with a command in flight: its last edge completes it, an earlier one only brings it nearer
(70_reset_and_hazards.md R138). -/
def flightEdge (f : InFlight) (s : State) : Host.Outcome State Fault Refusal :=
  if f.remaining ≤ 1 then completeInFlight f s else .next (s.startCommand f.instr (f.remaining - 1))

/-- One rising edge. `rst` wins over everything (70_reset_and_hazards.md R130, 60_exceptions.md R114); a faulted block is
stuck until reset (93_implementation_defined.md I9). -/
def edge (tm : Timing) (inp : Inputs) (s : State) : Host.Outcome State Fault Refusal :=
  if inp.rst then .next s.applyReset
  else
    match s.fault with
    | some r => .fault r
    | none =>
      match s.inFlight with
      | some f => flightEdge f s
      | none => if accepts inp s then acceptEdge tm inp.word s else .next s

/-- Consecutive edges, stopping at the first fault. -/
def runEdges (tm : Timing) : List Inputs → State → Host.Outcome State Fault Refusal
  | [], s => .next s
  | inp :: rest, s =>
    match edge tm inp s with
    | .next t => runEdges tm rest t
    | .fault r => .fault r
    | .refused r => .refused r

/-- One edge of the hardware, whose latencies are unknown (log 2). -/
def hardwareEdge (inp : Inputs) (s : State) : Host.Outcome State Fault Refusal := edge Config.timing inp s

end Sys2Proof.Machine
end

