-- ==== Sys2Proof/Machine/Run.lean ====
section
/-! DEFINITION. A run and what is seen at its end (70_reset_and_hazards.md R142). -/

namespace Sys2Proof.Machine

/-- A run over the host's list: it ends "when the list is exhausted and the last command has completed, or at the first
fault" (70_reset_and_hazards.md R142), which stays in `FAULT` (60_exceptions.md R115). -/
def runHost : List HostEvent → State → State
  | [], s => s
  | e :: es, s =>
    match stepEvent e s with
    | .next t => runHost es t
    | o => settle s o

/-- "the tuple (`FAULT`, `KV`, `RK` if `KV = 1`, `DV`, `DOUT` if `DV = 1`)" (70_reset_and_hazards.md R142). -/
structure FinalObservation where
  fault : Option Fault
  kv : Bool
  rk : Option RoundKeys
  dv : Bool
  dout : Option U8
  deriving DecidableEq, Repr

/-- The final observation of a state. -/
def finalObservation (s : State) : FinalObservation where
  fault := s.fault
  kv := s.kv
  rk := if s.kv then some s.rk else none
  dv := s.dv
  dout := if s.dv then some s.dout else none

end Sys2Proof.Machine
end

