-- ==== Sys2Proof/Safety.lean ====
section
/-! DEFINITION. The terms claims use: the invariant of the machine, the host's duties, and the states a host cannot tell
apart. -/

namespace Sys2Proof.Machine

/-- What holds between any two steps. `KV = 1` means that `RK` "holds the complete output of a KEY command" (10_state.md
R22); a result is valid only after a key was loaded (R24 with 43_block_ops.md R102, R103); a command in flight has at
least one edge to go, and one that reads keys was accepted with `KV = 1` (70_reset_and_hazards.md R138, 60_exceptions.md
R112). -/
structure State.Inv (s : State) : Prop where
  keys : s.kv = true → ∃ key, s.rk = generate key
  result : s.dv = true → s.kv = true
  flight : ∀ f, s.inFlight = some f → 1 ≤ f.remaining ∧ (readsKeys f.instr = true → s.kv = true)

/-- No fault is recorded and no command is in flight: the block between two commands of a run that has not faulted. -/
abbrev State.Ready (s : State) : Prop := s.fault = none ∧ s.inFlight = none

/-- Two states that differ at most where a register holds no value: in `RK` while `KV = 0` and in `DOUT` while `DV = 0`
(10_state.md R36). -/
structure State.Agree (s t : State) : Prop where
  kv : s.kv = t.kv
  dv : s.dv = t.dv
  fault : s.fault = t.fault
  inFlight : s.inFlight = t.inFlight
  host : s.host = t.host
  rk : s.kv = true → s.rk = t.rk
  dout : s.dv = true → s.dout = t.dout

/-- Outcomes that agree: the same kind, with agreeing states or the same reason. -/
def OutcomesAgree : Host.Outcome State Fault Refusal → Host.Outcome State Fault Refusal → Prop
  | .next s, .next t => s.Agree t
  | .fault r, .fault r' => r = r'
  | .refused r, .refused r' => r = r'
  | _, _ => False

/-- The host's duty for one element of its list, by the valid flags (70_reset_and_hazards.md R137): a block command only
with a key loaded, `dout` and `rk_bus` only while valid, no reserved word (60_exceptions.md R111). -/
def HostEvent.duty (kv dv : Bool) : HostEvent → Bool
  | .reset => true
  | .command w =>
    match decode w with
    | .ok i => !readsKeys i || kv
    | .error .reservedOp => false
  | .read .dout => dv
  | .read .rkBus => kv
  | .read .cmdReady => true
  | .read .doutValid => true
  | .read .keyValid => true

/-- The flags `KV` and `DV` after an element that keeps its duty (10_state.md R22, R24, R35). -/
def HostEvent.flagsAfter (kv dv : Bool) : HostEvent → Bool × Bool
  | .reset => (false, false)
  | .command w =>
    match decode w with
    | .ok (.key _) => (true, dv)
    | .ok (.enc _) => (kv, true)
    | .ok (.dec _) => (kv, true)
    | .error .reservedOp => (kv, dv)
  | .read _ => (kv, dv)

/-- A host whose whole list keeps its duties, read off the list alone (70_reset_and_hazards.md R137). -/
def keepsDuties : Bool → Bool → List HostEvent → Bool
  | _, _, [] => true
  | kv, dv, e :: es => e.duty kv dv && keepsDuties (e.flagsAfter kv dv).1 (e.flagsAfter kv dv).2 es

end Sys2Proof.Machine
end

