-- ==== Sys2Proof/Certificates/Slice0/Obligations.lean ====
section
/-! DEFINITION. The statements about mini_DES, each from the numbered rules of spec/ that its docstring names. -/

open Sys2Proof Sys2Proof.Machine

/-! ### Leaf primitives (40_primitives.md) -/

/-- R60: `rotl4(v) = {v[2:0], v[3]}`, with its corner cases and example. -/
def Obligations.RotateNibbleWiring : Prop :=
  (∀ v : U4, (rotl4 v).extractLsb' 1 3 = v.extractLsb' 0 3 ∧ (rotl4 v).getLsbD 0 = v.getLsbD 3) ∧
  rotl4 0x0#4 = 0x0#4 ∧ rotl4 0xF#4 = 0xF#4 ∧ rotl4 0x8#4 = 0x1#4 ∧ rotl4 0x5#4 = 0xA#4 ∧ rotl4 0xA#4 = 0x5#4 ∧
  rotl4 0b1011#4 = 0b0111#4

/-- R61: four rotations are the identity, so n rotations are n mod 4 rotations; `rotl4` is a bijection; n rotations
rotate left by n mod 4 places (bit i of the result is bit i - n mod 4 of the nibble). -/
def Obligations.RotateNibbleCycle : Prop :=
  (∀ v : U4, rotl4^[4] v = v) ∧
  (∀ (n : Nat) (v : U4), rotl4^[n] v = rotl4^[n % 4] v) ∧
  Function.Bijective rotl4 ∧
  (∀ (n : Nat) (v : U4), n % 4 = 0 → rotl4^[n] v = v) ∧
  (∀ (n i : Nat) (v : U4), i < 4 → (rotl4^[n] v).getLsbD i = v.getLsbD ((i + 4 - n % 4) % 4))

/-- R62 and R63: `rotl8(v) = {v[6:0], v[7]}` with its corner cases and example; PC1 is `rotl8` on the master key; eight
rotations are the identity; PC1 is a bijection on bytes. -/
def Obligations.PermutedChoiceOneRotatesByte : Prop :=
  (∀ v : U8, (rotl8 v).extractLsb' 1 7 = v.extractLsb' 0 7 ∧ (rotl8 v).getLsbD 0 = v.getLsbD 7) ∧
  rotl8 0x00#8 = 0x00#8 ∧ rotl8 0xFF#8 = 0xFF#8 ∧ rotl8 0x80#8 = 0x01#8 ∧ rotl8 0x01#8 = 0x02#8 ∧
  rotl8 0xAB#8 = 0x57#8 ∧
  (∀ key : U8, pc1 key = rotl8 key) ∧
  (∀ v : U8, rotl8^[8] v = v) ∧
  Function.Bijective pc1

/-- R64 and R65: the expander by its position list (position p names bit 3 - p, output bit 5 - i), its closed form, its
image, its injectivity and its complete table. -/
def Obligations.ExpanderFollowsPositionList : Prop :=
  expPos = [3, 0, 1, 2, 3, 1] ∧
  (∀ (v : U4) (i : Fin 6), (expand v).getLsbD (5 - i.val) = v.getLsbD (3 - expPos[i.val]!)) ∧
  (∀ (v : U4) (i : Fin 6), (expand v).getLsbD (5 - i.val) = v.getLsbD ([0, 3, 2, 1, 0, 2][i.val]!)) ∧
  Function.Injective expand ∧
  (∀ w : U6, (∃ v : U4, expand v = w) ↔ (w.getLsbD 5 = w.getLsbD 1 ∧ w.getLsbD 0 = w.getLsbD 3)) ∧
  (List.range 16).map (fun n => expand (BitVec.ofNat 4 n)) =
    [0x00#6, 0x22#6, 0x04#6, 0x26#6, 0x09#6, 0x2B#6, 0x0D#6, 0x2F#6, 0x10#6, 0x32#6, 0x14#6, 0x36#6, 0x19#6, 0x3B#6,
      0x1D#6, 0x3F#6]

/-- R66 and R67: row `{v[5], v[0]}`, column `v[4:1]`; each cell is named by exactly one input, the inverse map is
`{row[1], col[3:0], row[0]}`; the S-box reads that cell of whatever table it is given, with the corner cases and the
example of R67. -/
def Obligations.SboxReadsTheAddressedCell : Prop :=
  (∀ v : U6, (sboxRow v).getLsbD 1 = v.getLsbD 5 ∧ (sboxRow v).getLsbD 0 = v.getLsbD 0 ∧
    sboxCol v = v.extractLsb' 1 4) ∧
  (∀ (row : U2) (col : U4), ∃! v : U6, sboxRow v = row ∧ sboxCol v = col) ∧
  (∀ v : U6, (sboxRow v).extractLsb' 1 1 ++ sboxCol v ++ (sboxRow v).extractLsb' 0 1 = v) ∧
  ∀ T : SboxTable,
    (∀ v : U6, sbox T v = T (v.extractLsb' 5 1 ++ v.extractLsb' 0 1) (v.extractLsb' 1 4)) ∧
    sbox T 0b000000#6 = T 0 0 ∧ sbox T 0b111111#6 = T 3 15 ∧ sbox T 0b100000#6 = T 2 0 ∧ sbox T 0b000001#6 = T 1 0 ∧
    sbox T 0b011110#6 = T 0 15 ∧ sbox T 0b101101#6 = T 3 6

/-- R69 and R70: PC2 by its position list is a full bit reversal, with the corner cases and the example; it is an
involution fixing 0 and 0x3F; every round key of master key 0x00 is `PC2(0)`, the round key 0. -/
def Obligations.PermuterReversesBits : Prop :=
  pc2Pos = [1, 2, 3, 4, 5, 6] ∧
  (∀ (v : U6) (i : Fin 6), (pc2 v).getLsbD (5 - i.val) = v.getLsbD (pc2Pos[i.val]! - 1)) ∧
  (∀ (v : U6) (i : Fin 6), (pc2 v).getLsbD (5 - i.val) = v.getLsbD i.val) ∧
  (∀ v : U6, pc2 (pc2 v) = v) ∧
  pc2 0b000000#6 = 0b000000#6 ∧ pc2 0b111111#6 = 0b111111#6 ∧ pc2 0b000001#6 = 0b100000#6 ∧
  pc2 0b100000#6 = 0b000001#6 ∧ pc2 0b100001#6 = 0b100001#6 ∧ pc2 0b011110#6 = 0b011110#6 ∧
  pc2 0b101100#6 = 0b001101#6 ∧
  (∀ i : Fin 16, (generate 0x00#8)[i] = pc2 0#6) ∧ pc2 0#6 = 0#6

/-! ### Key schedule (41_key_schedule.md) -/

/-- R82: the closed form of the key schedule. `CUM` is the running sum of SHIFTS mod 4; round key i is
`{Di[0], Di[1], Di[2], Ci[0], Ci[1], Ci[2]}` for the halves rotated `CUM[i]` times; the sum of SHIFTS is 28, and after
round 16 the halves are back. -/
def Obligations.KeyScheduleClosedForm : Prop :=
  let cum : List Nat := [1, 2, 0, 2, 0, 2, 0, 2, 3, 1, 3, 1, 3, 1, 3, 0]
  shifts = [1, 1, 2, 2, 2, 2, 2, 2, 1, 2, 2, 2, 2, 2, 2, 1] ∧
  (List.range 16).map (fun i => (shifts.take (i + 1)).sum) =
    [1, 2, 4, 6, 8, 10, 12, 14, 15, 17, 19, 21, 23, 25, 27, 28] ∧
  (∀ i : Fin 16, cum[i.val]! = (shifts.take (i.val + 1)).sum % 4) ∧
  (∀ (key : U8) (i : Fin 16),
    let c := rotl4^[cum[i.val]!] ((pc1 key).extractLsb' 4 4)
    let d := rotl4^[cum[i.val]!] ((pc1 key).extractLsb' 0 4)
    (generate key)[i] = pc2 (c.extractLsb' 0 3 ++ d.extractLsb' 0 3) ∧
    (generate key)[i] = ofBitsMsb 6 [d.getLsbD 0, d.getLsbD 1, d.getLsbD 2, c.getLsbD 0, c.getLsbD 1, c.getLsbD 2]) ∧
  (∀ h : U4 × U4, rotateHalves 28 h = h)

/-- R83: the round keys fall into four groups by `CUM`; the keys 0x00, 0x78, 0x87 and 0xFF are exactly those with all 16
round keys equal, to 0x00, 0x07, 0x38 and 0x3F; 12 other keys give 2 distinct round keys and 240 give 4; the schedule is
injective. (The width and the determinism of R83 hold by the type `U8 → RoundKeys` of `generate`.) -/
def Obligations.KeyScheduleProperties : Prop :=
  (∀ key : U8, let ks := generate key
    (ks[2] = ks[4] ∧ ks[4] = ks[6] ∧ ks[6] = ks[15]) ∧
    (ks[0] = ks[9] ∧ ks[9] = ks[11] ∧ ks[11] = ks[13]) ∧
    (ks[1] = ks[3] ∧ ks[3] = ks[5] ∧ ks[5] = ks[7]) ∧
    (ks[8] = ks[10] ∧ ks[10] = ks[12] ∧ ks[12] = ks[14])) ∧
  (∀ key : U8, ((pc1 key).extractLsb' 4 4 = 0x0#4 ∨ (pc1 key).extractLsb' 4 4 = 0xF#4) →
    ((pc1 key).extractLsb' 0 4 = 0x0#4 ∨ (pc1 key).extractLsb' 0 4 = 0xF#4) →
    ∀ i j : Fin 16, (generate key)[i] = (generate key)[j]) ∧
  (∀ key : U8, (∀ i j : Fin 16, (generate key)[i] = (generate key)[j]) ↔
    (key = 0x00#8 ∨ key = 0x78#8 ∨ key = 0x87#8 ∨ key = 0xFF#8)) ∧
  generate 0x00#8 = Vector.replicate 16 0x00#6 ∧ generate 0x78#8 = Vector.replicate 16 0x07#6 ∧
  generate 0x87#8 = Vector.replicate 16 0x38#6 ∧ generate 0xFF#8 = Vector.replicate 16 0x3F#6 ∧
  (List.range 256).countP (fun n => (generate (BitVec.ofNat 8 n)).toList.dedup.length == 2) = 12 ∧
  (List.range 256).countP (fun n => (generate (BitVec.ofNat 8 n)).toList.dedup.length == 4) = 240 ∧
  Function.Injective generate

/-- R84: KEY completes in every state, writes all of `RK` and `KV`, and leaves every other field; its encoding; KEY twice
with the same data leaves `RK` identical; the keys 0x00 and 0xFF; the example of key 0xAB. -/
def Obligations.KeyCommandLoadsSchedule : Prop :=
  (∀ (k : U8) (s : State), exec (.key k) s = .next { s with rk := generate k, kv := true }) ∧
  (∀ k : U8, decode (0b01#2 ++ k) = .ok (.key k)) ∧
  (∀ (k : U8) (s t u : State), exec (.key k) s = .next t → exec (.key k) t = .next u → u.rk = t.rk) ∧
  (∀ i : Fin 16, (generate 0x00#8)[i] = 0x00#6 ∧ (generate 0xFF#8)[i] = 0x3F#6) ∧
  decode 0x1AB#10 = .ok (.key 0xAB#8) ∧
  generate 0xAB#8 = #v[0x1A#6, 0x2D#6, 0x3D#6, 0x2D#6, 0x3D#6, 0x2D#6, 0x3D#6, 0x2D#6, 0x32#6, 0x1A#6, 0x32#6, 0x1A#6,
    0x32#6, 0x1A#6, 0x32#6, 0x3D#6]

/-! ### Rounds and blocks (42_feistel_round.md, 43_block_ops.md) -/

/-- R90: `f(r, k)` step by step, the closed form of its S-box address, its corner cases and its example, for every
table. -/
def Obligations.RoundFunctionAddress : Prop :=
  (∀ T : SboxTable,
    (∀ (r : U4) (k : U6), roundFunction T r k = rotl4 (sbox T (expand r ^^^ k))) ∧
    (∀ (r : U4) (k : U6), roundFunction T r k = rotl4 (T
      (ofBitsMsb 2 [r.getLsbD 0 ^^ k.getLsbD 5, r.getLsbD 2 ^^ k.getLsbD 0])
      (ofBitsMsb 4 [r.getLsbD 3 ^^ k.getLsbD 4, r.getLsbD 2 ^^ k.getLsbD 3, r.getLsbD 1 ^^ k.getLsbD 2,
        r.getLsbD 0 ^^ k.getLsbD 1]))) ∧
    (∀ r : U4, roundFunction T r (expand r) = rotl4 (T 0 0)) ∧
    roundFunction T 0x0 0x00 = rotl4 (T 0 0) ∧ roundFunction T 0xF 0x3F = rotl4 (T 0 0) ∧
    roundFunction T 0x0 0x3F = rotl4 (T 3 15) ∧ roundFunction T 0xF 0x00 = rotl4 (T 3 15) ∧
    roundFunction T 0x0 0x1A = rotl4 (T 0 13)) ∧
  ∀ T : SboxTable, (∀ row col, T row col = 0) → ∀ (r : U4) (k : U6), roundFunction T r k = 0

/-- R91 and R92: one round is `(R, L ^ f(R, k))`, with its corner case and its example; followed by a swap of the halves
it is its own inverse, for every table. -/
def Obligations.FeistelRoundSelfInverse : Prop :=
  ∀ T : SboxTable,
    (∀ (l r : U4) (k : U6), feistelRound T (l, r) k = (r, l ^^^ roundFunction T r k)) ∧
    (∀ (l r : U4) (k : U6), roundFunction T r k = 0 → feistelRound T (l, r) k = (r, l)) ∧
    feistelRound T (0x0, 0x0) 0x00 = (0x0, rotl4 (T 0 0)) ∧
    (∀ (l r : U4) (k : U6),
      let g := fun h : U4 × U4 => (feistelRound T h k).swap
      g (l, r) = (l ^^^ roundFunction T r k, r) ∧ g (g (l, r)) = (l, r))

/-- R93: sixteen rounds, `RK[0]` to `RK[15]` in forward order and `RK[15]` to `RK[0]` in reverse order; with the all-zero
table the halves come back; with equal keys the orders agree; the example; `op[0]` of a block command selects the order,
and no rounds are run with `KV = 0`. -/
def Obligations.SixteenRoundsInKeyOrder : Prop :=
  (∀ (T : SboxTable) (rk : RoundKeys) (h : U4 × U4),
    rounds16 T rk .forward h = rk.toList.foldl (feistelRound T) h ∧
    rounds16 T rk .reverse h = rk.toList.reverse.foldl (feistelRound T) h) ∧
  (∀ (T : SboxTable) (rk : RoundKeys) (order : KeyOrder) (h : U4 × U4),
    (∀ row col, T row col = 0) → rounds16 T rk order h = h) ∧
  (∀ (T : SboxTable) (rk : RoundKeys) (h : U4 × U4), (∀ i j : Fin 16, rk[i] = rk[j]) →
    rounds16 T rk .forward h = rounds16 T rk .reverse h) ∧
  (∀ T : SboxTable, (∀ row col, T row col = 0) → rounds16 T (generate 0x00) .forward (0x1, 0x2) = (0x1, 0x2)) ∧
  (∀ (w : CmdWord) (i : Instr) (s : State), decode w = .ok i → readsKeys i = true →
    exec i s = if s.kv then
        .next { s with
          dout := joinSwapped
            (rounds16 Config.sboxTable s.rk (if w.getLsbD 8 then .reverse else .forward) (splitByte (dataField w)))
          dv := true }
      else .fault .keyNotLoaded)

/-- R100 and R101, with R42 and R44: both block functions split the byte with the high nibble as L, run the rounds forward
or in reverse, and put the final R in the high nibble. -/
def Obligations.BlockFunctionsSplitAndJoin : Prop :=
  ∀ (T : SboxTable) (rk : RoundKeys) (b : U8),
    (let h := rounds16 T rk .forward (b.extractLsb' 4 4, b.extractLsb' 0 4)
     encryptBlock T rk b = h.2 ++ h.1 ∧
     (encryptBlock T rk b).extractLsb' 4 4 = h.2 ∧ (encryptBlock T rk b).extractLsb' 0 4 = h.1) ∧
    (let h := rounds16 T rk .reverse (b.extractLsb' 4 4, b.extractLsb' 0 4)
     decryptBlock T rk b = h.2 ++ h.1 ∧
     (decryptBlock T rk b).extractLsb' 4 4 = h.2 ∧ (decryptBlock T rk b).extractLsb' 0 4 = h.1)

/-- R102: with a key loaded ENC completes and writes `DOUT` and `DV` alone; without one it faults; its encoding; under the
keys with equal round keys it does what DEC does; its example under the spec's test table. -/
def Obligations.EncCommandStoresCiphertext : Prop :=
  (∀ (pt : U8) (s : State), s.kv = true →
    exec (.enc pt) s = .next { s with dout := encryptBlock Config.sboxTable s.rk pt, dv := true }) ∧
  (∀ (pt : U8) (s : State), s.kv = false → exec (.enc pt) s = .fault .keyNotLoaded) ∧
  (∀ pt : U8, decode (0b10#2 ++ pt) = .ok (.enc pt)) ∧
  (∀ (key pt : U8) (s : State), (key = 0x00 ∨ key = 0x78 ∨ key = 0x87 ∨ key = 0xFF) → s.rk = generate key →
    exec (.enc pt) s = exec (.dec pt) s) ∧
  encryptBlock testSboxA (generate 0xAB) 0x00 = 0x91

/-- R103: with a key loaded DEC completes and writes `DOUT` and `DV` alone; without one it faults; its encoding; every
byte is the ciphertext of exactly one plaintext; `DEC y` and then `ENC DOUT` give back y; its examples. -/
def Obligations.DecCommandStoresPlaintext : Prop :=
  (∀ (ct : U8) (s : State), s.kv = true →
    exec (.dec ct) s = .next { s with dout := decryptBlock Config.sboxTable s.rk ct, dv := true }) ∧
  (∀ (ct : U8) (s : State), s.kv = false → exec (.dec ct) s = .fault .keyNotLoaded) ∧
  (∀ ct : U8, decode (0b11#2 ++ ct) = .ok (.dec ct)) ∧
  (∀ (T : SboxTable) (rk : RoundKeys) (y : U8), ∃! x : U8, encryptBlock T rk x = y) ∧
  (∀ (y : U8) (s t u : State), exec (.dec y) s = .next t → exec (.enc t.dout) t = .next u → u.dout = y) ∧
  decryptBlock testSboxA (generate 0xAB) 0x91 = 0x00 ∧
  (∀ T : SboxTable, decryptBlock T (generate 0xAB) (encryptBlock T (generate 0xAB) 0x00) = 0x00)

/-- R104, the inverse law: for every master key, every block and every table, decryption undoes encryption; and so in the
machine: from every state, KEY, then ENC, then DEC of the result complete and give the block back. -/
def Obligations.DecryptionInvertsEncryption : Prop :=
  (∀ (T : SboxTable) (key x : U8), decryptBlock T (generate key) (encryptBlock T (generate key) x) = x) ∧
  (∀ (T : SboxTable) (rk : RoundKeys) (x : U8), decryptBlock T rk (encryptBlock T rk x) = x) ∧
  ∀ (key x : U8) (s : State), ∃ t u v : State,
    exec (.key key) s = .next t ∧ exec (.enc x) t = .next u ∧ exec (.dec u.dout) u = .next v ∧ v.dout = x ∧
      v.rk = generate key ∧ v.kv = true ∧ v.dv = true

/-- R105: encryption under any round keys and any table is a permutation of the bytes, and decryption is its inverse on
both sides. -/
def Obligations.EncryptionIsPermutation : Prop :=
  ∀ (T : SboxTable) (rk : RoundKeys),
    Function.Bijective (encryptBlock T rk) ∧ (∀ y : U8, encryptBlock T rk (decryptBlock T rk y) = y)

/-- R106: under the four keys with equal round keys encryption is decryption and an involution; under the all-zero table
both are a nibble swap, for every key. -/
def Obligations.ConstantScheduleInvolution : Prop :=
  (∀ key : U8, (∀ i j : Fin 16, (generate key)[i] = (generate key)[j]) ↔
    (key = 0x00 ∨ key = 0x78 ∨ key = 0x87 ∨ key = 0xFF)) ∧
  (∀ (T : SboxTable) (rk : RoundKeys) (x : U8), (∀ i j : Fin 16, rk[i] = rk[j]) →
    encryptBlock T rk x = decryptBlock T rk x ∧ encryptBlock T rk (encryptBlock T rk x) = x) ∧
  (∀ (T : SboxTable) (key x : U8), (∀ row col, T row col = 0) →
    encryptBlock T (generate key) x = x.extractLsb' 0 4 ++ x.extractLsb' 4 4 ∧
    decryptBlock T (generate key) x = x.extractLsb' 0 4 ++ x.extractLsb' 4 4)

/-! ### Encoding (30_encoding.md) -/

/-- R52 and R54: a word is decoded by `word & 0x300` alone, compared with each `match`; `data` takes no part; `op[1]`
selects the block commands and, among them, `op[0]` the direction. -/
def Obligations.OpcodeMapDecodesWords : Prop :=
  (∀ w : CmdWord, w &&& 0x300#10 = 0x000#10 → decode w = .error .reservedOp) ∧
  (∀ w : CmdWord, w &&& 0x300#10 = 0x100#10 → decode w = .ok (.key (w.extractLsb' 0 8))) ∧
  (∀ w : CmdWord, w &&& 0x300#10 = 0x200#10 → decode w = .ok (.enc (w.extractLsb' 0 8))) ∧
  (∀ w : CmdWord, w &&& 0x300#10 = 0x300#10 → decode w = .ok (.dec (w.extractLsb' 0 8))) ∧
  (∀ (w : CmdWord) (i : Instr), decode w = .ok i →
    (readsKeys i = w.getLsbD 9) ∧
    (∀ s : State, readsKeys i = true → s.kv = true →
      exec i s = .next { s with
        dout := if w.getLsbD 8 then decryptBlock Config.sboxTable s.rk (w.extractLsb' 0 8)
          else encryptBlock Config.sboxTable s.rk (w.extractLsb' 0 8)
        dv := true }))

/-- Decode and encode agree both ways (from R50, R52 and R55): every command comes back from its word, with its operand,
and every word that decodes is the word of what it decodes to. -/
def Obligations.DecodeEncodeRoundTrip : Prop :=
  (∀ i : Instr, decode (encode i) = .ok i ∧ opField (encode i) = i.opcode ∧ dataField (encode i) = i.data) ∧
  (∀ (w : CmdWord) (i : Instr), decode w = .ok i → encode i = w) ∧
  Function.Injective encode

/-- R53 and R55: every one of the 1024 words decodes to KEY, ENC or DEC, or is the reserved opcode, and it is the latter
exactly when `op = 00`. -/
def Obligations.EveryWordDecodesOrIsReserved : Prop :=
  ∀ w : CmdWord,
    (decode w = .error .reservedOp ↔ w.extractLsb' 8 2 = 0b00#2) ∧
    (w.extractLsb' 8 2 ≠ 0b00#2 → ∃ i : Instr, decode w = .ok i ∧ i.wellFormed = true ∧
      (i = .key (w.extractLsb' 0 8) ∨ i = .enc (w.extractLsb' 0 8) ∨ i = .dec (w.extractLsb' 0 8)))

/-- The words that 95_test_vectors.md V9 writes out decode as listed there. -/
def Obligations.ListedWordsDecode : Prop :=
  decode 0b0110101011#10 = .ok (.key 0xAB) ∧ decode 0b0100000000#10 = .ok (.key 0x00) ∧
  decode 0b1000000000#10 = .ok (.enc 0x00) ∧ decode 0b1011111111#10 = .ok (.enc 0xFF) ∧
  decode 0b1110010001#10 = .ok (.dec 0x91) ∧ decode 0b1100111100#10 = .ok (.dec 0x3C) ∧
  decode 0b0000000000#10 = .error .reservedOp ∧ decode 0b0011111111#10 = .error .reservedOp

/-- A table word is read as the ports carry it: the bits it is given, decoded where they fit the 10 bits of the ports
(R27, R50), and refused where they do not (R32; log 15). -/
def Obligations.TableWordsReadThroughThePorts : Prop :=
  ∀ nbits w : Nat, decodeTableWord nbits w =
    if w % 2 ^ nbits < 1024 then (decode (BitVec.ofNat 10 (w % 2 ^ nbits))).toOption else none

/-- R56: the line that the assembly syntax gives a command assembles to its word, in either case of mnemonic and with any
comment after it; the word of every line that assembles is `(opcode << 8) | operand` with opcode 1, 2 or 3. (Where R56 is
silent, on blanks after the operand and the case of hex digits, the line is read as log 14 says.) -/
def Obligations.AssemblyLinesRoundTrip : Prop :=
  (∀ i : Instr, assembleLine (assemblyLine i) = some (encode i)) ∧
  (∀ (i : Instr) (comment : List Char), assembleLine (assemblyLine i ++ ';' :: comment) = some (encode i)) ∧
  (∀ i : Instr, assembleLine ((assemblyLine i).take 3 |>.map Char.toLower |>.append ((assemblyLine i).drop 3)) =
    some (encode i)) ∧
  (∀ (line : List Char) (w : CmdWord), assembleLine line = some w →
    ∃ i : Instr, w = encode i ∧ w.toNat = i.opcode.toNat * 256 + i.data.toNat ∧ 1 ≤ i.opcode.toNat) ∧
  (∀ (a b c : Char) (rest : List Char),
    ([a, b, c].map Char.toUpper ≠ ['K', 'E', 'Y'] ∧ [a, b, c].map Char.toUpper ≠ ['E', 'N', 'C'] ∧
      [a, b, c].map Char.toUpper ≠ ['D', 'E', 'C']) → assembleLine (a :: b :: c :: rest) = none)

/-! ### The step -/

/-- A step runs the decoded command: on a block that is ready, with a word that decodes to i next in the host's list, the
step is exec of i, after taking the word off the list; and so after `withFetchWord` from every state (the model's way of
placing a word, log 6). -/
def Obligations.StepRunsDecodedCommand : Prop :=
  (∀ (s : State) (w : CmdWord) (es : List HostEvent) (i : Instr), s.Ready → s.host = .command w :: es →
    decode w = .ok i → step s = exec i (s.withHost es)) ∧
  (∀ (s : State) (nbits w : Nat) (i : Instr), decodeTableWord nbits w = some i →
    step (s.withFetchWord nbits w) = exec i { s with inFlight := none, fault := none })

/-- R124: with nothing presented and no command in flight the block holds its state, with `cmd_ready = 1`. (That
an empty host list is an idle step is the model's choice, logs 6 and 19.) -/
def Obligations.IdleBlockHoldsState : Prop :=
  ∀ s : State, s.Ready →
    s.cmdReady false = true ∧ (s.host = [] → step s = .next s) ∧
    (∀ (tm : Timing) (inp : Inputs), inp.rst = false → inp.cmdValid = false → edge tm inp s = .next s)

/-- The frame of every command (R84, R102, R103, D8): whatever an accepted command does, `FAULT`, the command in flight
and the host's list are unchanged; KEY leaves `DOUT` and `DV`; ENC and DEC leave `RK` and `KV`. There is no memory
(R40). -/
def Obligations.CommandFrames : Prop :=
  ∀ (s t : State),
    (∀ k : U8, exec (.key k) s = .next t →
      t.dout = s.dout ∧ t.dv = s.dv ∧ t.fault = s.fault ∧ t.inFlight = s.inFlight ∧ t.host = s.host) ∧
    (∀ (i : Instr) (b : U8), (i = .enc b ∨ i = .dec b) → exec i s = .next t →
      t.rk = s.rk ∧ t.kv = s.kv ∧ t.fault = s.fault ∧ t.inFlight = s.inFlight ∧ t.host = s.host)

/-- Whole-machine rule from R21, R22, R23, R24, R34 and R109: in any step that is no reset, `RK` and `KV` change only by a
KEY command, to its whole schedule and 1, and `DOUT` and `DV` only by an ENC or DEC; `FAULT` never changes in a step that
answers a next state. -/
def Obligations.RegistersWrittenOnlyByTheirCommands : Prop :=
  ∀ s t : State, step s = .next t → (∀ es, s.host ≠ .reset :: es) →
    t.fault = s.fault ∧
    ((t.rk = s.rk ∧ t.kv = s.kv) ∨
      ∃ k : U8, t.rk = generate k ∧ t.kv = true ∧ t.dout = s.dout ∧ t.dv = s.dv ∧
        ((∃ n, s.inFlight = some ⟨.key k, n⟩) ∨ ∃ w es, s.host = .command w :: es ∧ decode w = .ok (.key k))) ∧
    ((t.dout = s.dout ∧ t.dv = s.dv) ∨
      ∃ i : Instr, readsKeys i = true ∧ s.kv = true ∧ t.dv = true ∧ t.rk = s.rk ∧ t.kv = s.kv ∧
        ((∃ n, s.inFlight = some ⟨i, n⟩) ∨ ∃ w es, s.host = .command w :: es ∧ decode w = .ok i))

/-- R48: commands take effect in the order accepted. A KEY followed by an ENC encrypts under the new key; an ENC followed
by a KEY keeps its result, computed under the old key. -/
def Obligations.CommandsTakeEffectInOrder : Prop :=
  ∀ (s : State) (w1 w2 : CmdWord) (es : List HostEvent) (k x : U8), s.Ready →
    (s.host = .command w1 :: .command w2 :: es → decode w1 = .ok (.key k) → decode w2 = .ok (.enc x) →
      Host.Core.run Sys2Proof.core 2 s = .next { s with
        rk := generate k, kv := true, dout := encryptBlock Config.sboxTable (generate k) x, dv := true, host := es }) ∧
    (s.kv = true → s.host = .command w1 :: .command w2 :: es → decode w1 = .ok (.enc x) →
      decode w2 = .ok (.key k) →
      Host.Core.run Sys2Proof.core 2 s = .next { s with
        rk := generate k, kv := true, dout := encryptBlock Config.sboxTable s.rk x, dv := true, host := es })

/-! ### Faults (60_exceptions.md) -/

/-- R53 and R111: an accepted word with `op = 00` faults with `F_RESERVED_OP`, whatever `KV` is and whatever its operand,
in a step and at an edge, and no state is written but the fault record. That the fault comes on the edge that accepts the
word is the model's choice (log 20, DEDUCED: the rules do not say on which edge), and so is that `settle` writes the record
(log 5). -/
def Obligations.ReservedWordFaults : Prop :=
  ∀ (s : State) (data : U8), s.Ready →
    (∀ es, s.host = .command (0b00#2 ++ data) :: es →
      step s = .fault .reservedOp ∧ settle s (step s) = { s with fault := some .reservedOp }) ∧
    (∀ (tm : Timing) (inp : Inputs), accepts inp s = true → inp.word = 0b00#2 ++ data →
      edge tm inp s = .fault .reservedOp)

/-- R112: an ENC or DEC accepted while `KV = 0` faults with `F_KEY_NOT_LOADED`, in a step and at an edge, and no state is
written but the fault record. That the fault comes on the edge that accepts the command is the model's choice (log 20,
DEDUCED: the rule does not say on which edge), and so is that `settle` writes the record (log 5). -/
def Obligations.KeylessBlockCommandFaults : Prop :=
  ∀ (s : State) (data : U8) (op : U2), s.Ready → s.kv = false → (op = 0b10#2 ∨ op = 0b11#2) →
    (∀ es, s.host = .command (op ++ data) :: es →
      step s = .fault .keyNotLoaded ∧ settle s (step s) = { s with fault := some .keyNotLoaded }) ∧
    (∀ (tm : Timing) (inp : Inputs), accepts inp s = true → inp.word = op ++ data →
      edge tm inp s = .fault .keyNotLoaded)

/-- R113: observing `dout` while `DV = 0` or `rk_bus` while `KV = 0` faults with `F_UNWRITTEN_READ`; `dout_valid` and
`key_valid` can always be read. In between commands the reads with the flags at 1 give the register. -/
def Obligations.UnwrittenReadsFault : Prop :=
  ∀ (s : State) (rst : Bool),
    (s.dv = false → observe rst .dout s = .fault .unwrittenRead) ∧
    (s.kv = false → observe rst .rkBus s = .fault .unwrittenRead) ∧
    (∃ v, observe rst .doutValid s = .next v) ∧ (∃ v, observe rst .keyValid s = .next v) ∧
    (s.inFlight = none → s.dv = true → observe rst .dout s = .next (.byte s.dout)) ∧
    (s.inFlight = none → s.kv = true → observe rst .rkBus s = .next (.bus (rkBusOf s.rk)))

/-- R25, R110, R115 and R116, in part (so derived): a step that faults leaves every field but `FAULT`, and a code once held
stays; a block that holds a code takes no command, in a step or at an edge; a reset clears it. The fault codes are 1, 2
and 3. Of these clauses the model's choices are: that the record is written by `settle` (log 5, DESIGN CHOICE); that a block
with a code answers that same code at every edge without `rst`, with or without a command presented (log 11, DEDUCED); that
an idle step of such a block gives no next state (log 19, DEDUCED) and a port read does (log 16, DESIGN CHOICE). -/
def Obligations.FaultsArePreciseAndFinal : Prop :=
  (∀ (s : State) (r : Fault), step s = .fault r → s.fault = none → settle s (step s) = { s with fault := some r }) ∧
  (∀ (s : State) (r c : Fault), s.fault = some c → settle s (.fault r) = s) ∧
  (∀ (s t : State) (c : Fault), s.fault = some c → step s = .next t →
    (∃ es, s.host = .reset :: es ∧ t = (s.withHost es).applyReset ∧ t.fault = none) ∨
    (∃ p es, s.host = .read p :: es ∧ t = s.withHost es)) ∧
  (∀ (tm : Timing) (inp : Inputs) (s : State) (c : Fault), s.fault = some c →
    (inp.rst = false → edge tm inp s = .fault c) ∧
    (inp.rst = true → ∃ t, edge tm inp s = .next t ∧ t.fault = none)) ∧
  [Fault.reservedOp, Fault.keyNotLoaded, Fault.unwrittenRead].map Fault.code = [1, 2, 3]

/-- No step refuses. On a ready block an element of the host's list is taken exactly when it keeps the host's duty, and
one that breaks it faults with the code of the duty broken (from R137, with R111, R112 and R113; that a port read is a step
is the model's choice, log 16). -/
def Obligations.StepFaultsExactlyOnBrokenDuty : Prop :=
  (∀ (s : State) (r : Refusal), step s ≠ .refused r) ∧
  ∀ (s : State) (e : HostEvent) (es : List HostEvent), s.Ready → s.host = e :: es →
    ((∃ t, step s = .next t) ↔ e.duty s.kv s.dv = true) ∧
    (e.duty s.kv s.dv = false → ∃ r : Fault, step s = .fault r ∧
      ((∃ w, e = .command w ∧ w.extractLsb' 8 2 = 0b00#2 ∧ r = .reservedOp) ∨
       (∃ w, e = .command w ∧ w.extractLsb' 8 2 ≠ 0b00#2 ∧ r = .keyNotLoaded) ∨
       ((e = .read .dout ∨ e = .read .rkBus) ∧ r = .unwrittenRead)))

/-- Safety and completion of runs (from R137, R135 and R142): from every ready state, a host's list runs to its end without
a fault exactly when it keeps the host's duties, which can be read off the list and the two flags alone; at its end the
block is ready again and the run of `runHost` leaves the same block. That the list stands in State and that port reads are
elements of it is the model's choice (logs 6 and 16, DESIGN CHOICE). -/
def Obligations.DutifulHostNeverFaults : Prop :=
  ∀ (s : State) (es : List HostEvent), s.Ready →
    (keepsDuties s.kv s.dv es = true ↔
      ∃ t, Host.Core.run Sys2Proof.core es.length (s.withHost es) = .next t) ∧
    (∀ t, Host.Core.run Sys2Proof.core es.length (s.withHost es) = .next t →
      t.Ready ∧ t.host = [] ∧ t = (runHost es s).withHost [])

/-! ### Reset, handshake and ports (70_reset_and_hazards.md, 10_state.md) -/

/-- R35: after reset `KV = 0`, `DV = 0`, `FAULT = none` and `cmd_ready = 1`; `RK` and `DOUT` hold no value, which is that
their observation faults. (What the fields `rk` and `dout` hold then is the model's choice, logs 3 and 4, and is not
stated.) -/
def Obligations.ResetStateValues : Prop :=
  let s := State.reset
  s.kv = false ∧ s.dv = false ∧ s.fault = none ∧ s.cmdReady false = true ∧
  observe false .rkBus s = .fault .unwrittenRead ∧ observe false .dout s = .fault .unwrittenRead ∧
  observe false .keyValid s = .next (.bit false) ∧ observe false .doutValid s = .next (.bit false)

/-- R130 to R133: on an edge with `rst = 1` the block resets, from every state (one before the first reset, one with a
command in flight, one that faulted) and whatever else is presented; `cmd_ready` reads 0 while `rst = 1` and 1 on the first
edge after; the command in flight is abandoned. Reset has the same effect from every state, on all that holds
a value then. -/
def Obligations.ResetEdgeWins : Prop :=
  ∀ (tm : Timing) (inp : Inputs) (s : State), inp.rst = true →
    accepts inp s = false ∧ s.cmdReady true = false ∧
    ∃ t : State, edge tm inp s = .next t ∧
      t.kv = false ∧ t.dv = false ∧ t.fault = none ∧ t.inFlight = none ∧ t.host = s.host ∧ t.cmdReady false = true ∧
      (∀ rst, observe rst .rkBus t = .fault .unwrittenRead ∧ observe rst .dout t = .fault .unwrittenRead) ∧
      (∀ inp' : Inputs, inp'.rst = false → inp'.cmdValid = true → accepts inp' t = true) ∧
      ∀ s' : State, s'.host = s.host → ∃ t' : State, edge tm inp s' = .next t' ∧ t'.Agree t

/-- A reset next in the host's list abandons the command in flight: none of its writes take place (from R132; that the
reset is taken before the command completes is the model's order, log 10). -/
def Obligations.ResetAbandonsCommandInFlight : Prop :=
  ∀ (s s' : State) (es : List HostEvent), s.host = .reset :: es → s'.host = .reset :: es →
    OutcomesAgree (step s) (step s') ∧ ∃ t, step s = .next t ∧ t.Ready ∧ t.kv = false ∧ t.dv = false ∧ t.host = es

/-- From R136: a command is taken exactly on an edge with `rst = 0`, `cmd_valid = 1` and `cmd_ready = 1`; the command ports
matter on no other edge, so a command presented while the block is busy changes nothing (the command in flight goes on
as if it were not there, log 21). -/
def Obligations.HandshakeAcceptsOnlyWhenReady : Prop :=
  ∀ (tm : Timing) (inp inp' : Inputs) (s : State),
    (accepts inp s = true ↔ inp.rst = false ∧ inp.cmdValid = true ∧ s.cmdReady inp.rst = true) ∧
    (accepts inp s = false → accepts inp' s = false → inp.rst = inp'.rst → edge tm inp s = edge tm inp' s) ∧
    (accepts inp s = false → inp.rst = false → s.Ready → edge tm inp s = .next s) ∧
    (accepts inp s = true → s.fault = none → ∀ i t, decode inp.word = .ok i → exec i s = .next t →
      edge tm inp s = .next { s with inFlight := some ⟨i, latency tm i⟩ })

/-- Refinement (from R138, R139 and R141): for every pair of latencies, a command accepted on edge t has completed on edge
t + LAT with exactly the effect of one transaction-level step, whatever the host presents meanwhile; one that faults,
faults on edge t with the same code. 'Whatever the host presents meanwhile' is the model's choice where a command is
presented (log 21, DEDUCED), and so is the fault on edge t itself (log 20, DEDUCED); that both views run over one State is
log 7 (DESIGN CHOICE). -/
def Obligations.EdgesRefineTheStep : Prop :=
  ∀ (tm : Timing) (s : State) (inp : Inputs) (rest : List Inputs) (i : Instr), tm.Positive → s.Ready →
    inp.rst = false → inp.cmdValid = true → decode inp.word = .ok i → rest.length = latency tm i →
    (∀ x ∈ rest, x.rst = false) →
    runEdges tm (inp :: rest) s = exec i s ∧
    ∀ es, step (s.withHost (.command inp.word :: es)) = exec i (s.withHost es)

/-- R138 for the edges in between: until edge t + LAT no register has changed, `cmd_ready` reads 0; while a KEY is in
flight `key_valid` reads 0 and `rk_bus` holds no value, while an ENC or DEC is in flight `dout_valid` reads 0 and `dout`
holds no value, and the other outputs keep their values. The model's choices here: that the fields `kv` and `dv` themselves
keep their values in the middle of a command and only the ports are masked (log 8, DEDUCED), and that the edges left are
counted down while another command is presented (log 21, DEDUCED). -/
def Obligations.InFlightCommandShowsNothing : Prop :=
  ∀ (tm : Timing) (s t : State) (inp : Inputs) (rest : List Inputs) (i : Instr), s.Ready →
    inp.rst = false → inp.cmdValid = true → decode inp.word = .ok i → exec i s = .next t →
    rest.length < latency tm i → (∀ x ∈ rest, x.rst = false) →
    ∃ u : State, runEdges tm (inp :: rest) s = .next u ∧
      u = { s with inFlight := some ⟨i, latency tm i - rest.length⟩ } ∧
      u.cmdReady false = false ∧
      (readsKeys i = false → u.keyValid = false ∧ observe false .rkBus u = .fault .unwrittenRead ∧
        u.doutValid = s.doutValid ∧ observe false .dout u = observe false .dout s) ∧
      (readsKeys i = true → u.doutValid = false ∧ observe false .dout u = .fault .unwrittenRead ∧
        u.keyValid = s.keyValid ∧ observe false .rkBus u = observe false .rkBus s)

/-- R28: `rk_bus` holds `RK[i]` in bits 6i+5 to 6i; so bits 5:0 are `RK[0]` and bits 95:90 are `RK[15]`; a read of the
port gives that, and only with `KV = 1`. -/
def Obligations.RoundKeyBusPacking : Prop :=
  ∀ rk : RoundKeys, (∀ i : Fin 16, (rkBusOf rk).extractLsb' (6 * i.val) 6 = rk[i]) ∧
    (rkBusOf rk).extractLsb' 0 6 = rk[0] ∧ (rkBusOf rk).extractLsb' 90 6 = rk[15] ∧
    ∀ (s : State) (rst : Bool) (v : PortValue), observe rst .rkBus s = .next v →
      s.kv = true ∧ v = .bus (rkBusOf s.rk)

/-- R29, between commands: `dout_valid` and `key_valid` show `DV` and `KV`, and `dout`, where it holds a value, shows
`DOUT`. -/
def Obligations.PortsShowTheRegisters : Prop :=
  ∀ (s : State) (rst : Bool), s.inFlight = none →
    observe rst .doutValid s = .next (.bit s.dv) ∧ observe rst .keyValid s = .next (.bit s.kv) ∧
    (∀ v, observe rst .dout s = .next v → v = .byte s.dout)

/-- From R46: a read of a port changes no state of the block, and its value has the port's width. (That
a read is a step is the model's choice, log 16.) -/
def Obligations.ReadsHaveNoSideEffect : Prop :=
  (∀ (s t : State) (p : OutPort) (es : List HostEvent), s.host = .read p :: es → s.inFlight = none →
    step s = .next t → t = s.withHost es ∧ ∃ v, observe false p s = .next v ∧ observe false p t = .next v) ∧
  (∀ (s : State) (rst : Bool) (p : OutPort) (v : PortValue), observe rst p s = .next v →
    match p with
    | .dout => ∃ b, v = .byte b
    | .rkBus => ∃ b, v = .bus b
    | .cmdReady => ∃ b, v = .bit b
    | .doutValid => ∃ b, v = .bit b
    | .keyValid => ∃ b, v = .bit b)

/-! ### Invariants and isolation -/

/-- The invariant holds at reset. -/
def Obligations.InvariantAtReset : Prop := State.reset.Inv

/-- Every step keeps the invariant: `KV = 1` means that `RK` is the schedule of some master key (R22), a result is valid
only with a key loaded, and a command in flight that reads keys has them (it was checked on the edge that accepted it, the
model's choice, log 20). -/
def Obligations.StepKeepsInvariant : Prop :=
  ∀ s t : State, s.Inv → step s = .next t → t.Inv

/-- Every edge keeps the invariant too, for all latencies of at least 1 (R7). That a command in flight has its keys
rests on the check at the accepting edge, the model's choice (log 20). -/
def Obligations.EdgeKeepsInvariant : Prop :=
  ∀ (tm : Timing) (inp : Inputs) (s t : State), tm.Positive → s.Inv → edge tm inp s = .next t → t.Inv

/-- Isolation (from R36, R131 and I5): what `RK` holds while `KV = 0` and what `DOUT` holds while `DV = 0` can be told by
nothing: two states that agree elsewhere agree at every port and in the final observation, and agree again after every
step and every edge. So no claim rests on the model's reset values (logs 3, 4). -/
def Obligations.UnwrittenRegistersNeverMatter : Prop :=
  ∀ s t : State, s.Agree t →
    OutcomesAgree (step s) (step t) ∧
    (∀ (tm : Timing) (inp : Inputs), OutcomesAgree (edge tm inp s) (edge tm inp t)) ∧
    (∀ (rst : Bool) (p : OutPort), observe rst p s = observe rst p t) ∧
    finalObservation s = finalObservation t

/-- From R142, R110 and R115: a run ends at the first fault with the code in `FAULT` and everything else as it was; the
final observation is the tuple of R142. The model's choices here: that `runHost` writes `FAULT`, beside the step (log 5),
and that the host's list also holds resets and port reads, so that they are elements of one run (logs 6 and 16), where
R142's run is the commands after one reset. -/
def Obligations.RunEndsAtFirstFault : Prop :=
  (∀ (s : State) (e : HostEvent) (es : List HostEvent) (r : Fault), s.fault = none → stepEvent e s = .fault r →
    runHost (e :: es) s = { s with fault := some r }) ∧
  (∀ (s t : State) (e : HostEvent) (es : List HostEvent), stepEvent e s = .next t →
    runHost (e :: es) s = runHost es t) ∧
  (∀ s : State, runHost [] s = s) ∧
  (∀ s : State, (finalObservation s).fault = s.fault ∧ (finalObservation s).kv = s.kv ∧
    (finalObservation s).dv = s.dv ∧
    (s.kv = true → (finalObservation s).rk = some s.rk) ∧ (s.kv = false → (finalObservation s).rk = none) ∧
    (s.dv = true → (finalObservation s).dout = some s.dout) ∧ (s.dv = false → (finalObservation s).dout = none))
end

