-- ==== Sys2Proof/Laws/State.lean ====
section
/-! SUPPORT. One lemma per field per update of State, each true by rfl, so that no later proof unfolds a record update. -/

namespace Sys2Proof.Machine

@[simp] theorem State.loadKeys_rk (s : State) (ks : RoundKeys) : (s.loadKeys ks).rk = ks := rfl
@[simp] theorem State.loadKeys_kv (s : State) (ks : RoundKeys) : (s.loadKeys ks).kv = true := rfl
@[simp] theorem State.loadKeys_dout (s : State) (ks : RoundKeys) : (s.loadKeys ks).dout = s.dout := rfl
@[simp] theorem State.loadKeys_dv (s : State) (ks : RoundKeys) : (s.loadKeys ks).dv = s.dv := rfl
@[simp] theorem State.loadKeys_fault (s : State) (ks : RoundKeys) : (s.loadKeys ks).fault = s.fault := rfl
@[simp] theorem State.loadKeys_inFlight (s : State) (ks : RoundKeys) : (s.loadKeys ks).inFlight = s.inFlight := rfl
@[simp] theorem State.loadKeys_host (s : State) (ks : RoundKeys) : (s.loadKeys ks).host = s.host := rfl

@[simp] theorem State.storeResult_rk (s : State) (v : U8) : (s.storeResult v).rk = s.rk := rfl
@[simp] theorem State.storeResult_kv (s : State) (v : U8) : (s.storeResult v).kv = s.kv := rfl
@[simp] theorem State.storeResult_dout (s : State) (v : U8) : (s.storeResult v).dout = v := rfl
@[simp] theorem State.storeResult_dv (s : State) (v : U8) : (s.storeResult v).dv = true := rfl
@[simp] theorem State.storeResult_fault (s : State) (v : U8) : (s.storeResult v).fault = s.fault := rfl
@[simp] theorem State.storeResult_inFlight (s : State) (v : U8) : (s.storeResult v).inFlight = s.inFlight := rfl
@[simp] theorem State.storeResult_host (s : State) (v : U8) : (s.storeResult v).host = s.host := rfl

@[simp] theorem State.applyReset_rk (s : State) : (s.applyReset).rk = State.reset.rk := rfl
@[simp] theorem State.applyReset_kv (s : State) : (s.applyReset).kv = false := rfl
@[simp] theorem State.applyReset_dout (s : State) : (s.applyReset).dout = State.reset.dout := rfl
@[simp] theorem State.applyReset_dv (s : State) : (s.applyReset).dv = false := rfl
@[simp] theorem State.applyReset_fault (s : State) : (s.applyReset).fault = none := rfl
@[simp] theorem State.applyReset_inFlight (s : State) : (s.applyReset).inFlight = none := rfl
@[simp] theorem State.applyReset_host (s : State) : (s.applyReset).host = s.host := rfl

@[simp] theorem State.startCommand_rk (s : State) (i : Instr) (n : Nat) : (s.startCommand i n).rk = s.rk := rfl
@[simp] theorem State.startCommand_kv (s : State) (i : Instr) (n : Nat) : (s.startCommand i n).kv = s.kv := rfl
@[simp] theorem State.startCommand_dout (s : State) (i : Instr) (n : Nat) : (s.startCommand i n).dout = s.dout := rfl
@[simp] theorem State.startCommand_dv (s : State) (i : Instr) (n : Nat) : (s.startCommand i n).dv = s.dv := rfl
@[simp] theorem State.startCommand_fault (s : State) (i : Instr) (n : Nat) : (s.startCommand i n).fault = s.fault := rfl
@[simp] theorem State.startCommand_inFlight (s : State) (i : Instr) (n : Nat) : (s.startCommand i n).inFlight = some ⟨i, n⟩ := rfl
@[simp] theorem State.startCommand_host (s : State) (i : Instr) (n : Nat) : (s.startCommand i n).host = s.host := rfl

@[simp] theorem State.clearInFlight_rk (s : State) : (s.clearInFlight).rk = s.rk := rfl
@[simp] theorem State.clearInFlight_kv (s : State) : (s.clearInFlight).kv = s.kv := rfl
@[simp] theorem State.clearInFlight_dout (s : State) : (s.clearInFlight).dout = s.dout := rfl
@[simp] theorem State.clearInFlight_dv (s : State) : (s.clearInFlight).dv = s.dv := rfl
@[simp] theorem State.clearInFlight_fault (s : State) : (s.clearInFlight).fault = s.fault := rfl
@[simp] theorem State.clearInFlight_inFlight (s : State) : (s.clearInFlight).inFlight = none := rfl
@[simp] theorem State.clearInFlight_host (s : State) : (s.clearInFlight).host = s.host := rfl

@[simp] theorem State.withHost_rk (s : State) (es : List HostEvent) : (s.withHost es).rk = s.rk := rfl
@[simp] theorem State.withHost_kv (s : State) (es : List HostEvent) : (s.withHost es).kv = s.kv := rfl
@[simp] theorem State.withHost_dout (s : State) (es : List HostEvent) : (s.withHost es).dout = s.dout := rfl
@[simp] theorem State.withHost_dv (s : State) (es : List HostEvent) : (s.withHost es).dv = s.dv := rfl
@[simp] theorem State.withHost_fault (s : State) (es : List HostEvent) : (s.withHost es).fault = s.fault := rfl
@[simp] theorem State.withHost_inFlight (s : State) (es : List HostEvent) : (s.withHost es).inFlight = s.inFlight := rfl
@[simp] theorem State.withHost_host (s : State) (es : List HostEvent) : (s.withHost es).host = es := rfl

@[simp] theorem State.presentWord_rk (s : State) (w : CmdWord) : (s.presentWord w).rk = s.rk := rfl
@[simp] theorem State.presentWord_kv (s : State) (w : CmdWord) : (s.presentWord w).kv = s.kv := rfl
@[simp] theorem State.presentWord_dout (s : State) (w : CmdWord) : (s.presentWord w).dout = s.dout := rfl
@[simp] theorem State.presentWord_dv (s : State) (w : CmdWord) : (s.presentWord w).dv = s.dv := rfl
@[simp] theorem State.presentWord_fault (s : State) (w : CmdWord) : (s.presentWord w).fault = none := rfl
@[simp] theorem State.presentWord_inFlight (s : State) (w : CmdWord) : (s.presentWord w).inFlight = none := rfl
@[simp] theorem State.presentWord_host (s : State) (w : CmdWord) : (s.presentWord w).host = .command w :: s.host := rfl

@[simp] theorem State.reset_kv : State.reset.kv = false := rfl
@[simp] theorem State.reset_dv : State.reset.dv = false := rfl
@[simp] theorem State.reset_fault : State.reset.fault = none := rfl
@[simp] theorem State.reset_inFlight : State.reset.inFlight = none := rfl
@[simp] theorem State.reset_host : State.reset.host = [] := rfl

/-- Taking a fault writes the fault record alone, and only where no code is held. -/
theorem State.recordFault_of_none {s : State} (r : Fault) (h : s.fault = none) :
    s.recordFault r = { s with fault := some r } := by
  simp [State.recordFault, h]

/-- A code once held stays. -/
theorem State.recordFault_of_some {s : State} (r : Fault) {c : Fault} (h : s.fault = some c) : s.recordFault r = s := by
  simp [State.recordFault, h]

/-- Clearing the command in flight of a block that has none changes nothing. -/
theorem State.clearInFlight_of_none {s : State} (h : s.inFlight = none) : s.clearInFlight = s := by
  cases s; simp_all [State.clearInFlight]

/-- A command that starts and leaves again is as if it had not been there. -/
@[simp] theorem State.clearInFlight_startCommand (s : State) (i : Instr) (n : Nat) :
    (s.startCommand i n).clearInFlight = s.clearInFlight := rfl

@[simp] theorem State.startCommand_startCommand (s : State) (i j : Instr) (m n : Nat) :
    (s.startCommand i m).startCommand j n = s.startCommand j n := rfl

@[simp] theorem State.withHost_withHost (s : State) (es fs : List HostEvent) :
    (s.withHost es).withHost fs = s.withHost fs := rfl

@[simp] theorem State.loadKeys_withHost (s : State) (ks : RoundKeys) (es : List HostEvent) :
    (s.withHost es).loadKeys ks = (s.loadKeys ks).withHost es := rfl

@[simp] theorem State.storeResult_withHost (s : State) (v : U8) (es : List HostEvent) :
    (s.withHost es).storeResult v = (s.storeResult v).withHost es := rfl

@[simp] theorem State.applyReset_withHost (s : State) (es : List HostEvent) :
    (s.withHost es).applyReset = s.applyReset.withHost es := rfl

end Sys2Proof.Machine
end

