-- ==== Sys2Proof/Laws/Exec.lean ====
section
/-! SUPPORT. What each shared operation, each meaning, a step and an edge can do, said once. -/

namespace Sys2Proof.Machine

/-- With a key loaded, a block command stores its result. -/
theorem blockCommand_of_keys {s : State} (f : RoundKeys → U8) (h : s.kv = true) :
    blockCommand f s = .next (s.storeResult (f s.rk)) := by
  simp [blockCommand, h]

/-- Without a key, a block command faults. -/
theorem blockCommand_of_no_keys {s : State} (f : RoundKeys → U8) (h : s.kv = false) :
    blockCommand f s = .fault .keyNotLoaded := by
  simp [blockCommand, h]

theorem exec_key (k : U8) (s : State) : exec (.key k) s = .next (s.loadKeys (generate k)) := rfl

theorem exec_enc (b : U8) (s : State) :
    exec (.enc b) s = blockCommand (fun rk => encryptBlock Config.sboxTable rk b) s := rfl

theorem exec_dec (b : U8) (s : State) :
    exec (.dec b) s = blockCommand (fun rk => decryptBlock Config.sboxTable rk b) s := rfl

/-- A command that reads keys is a block command, its result a function of the round keys. -/
theorem exec_of_readsKeys {i : Instr} (h : readsKeys i = true) :
    ∃ f : RoundKeys → U8, ∀ s, exec i s = blockCommand f s := by
  cases i with
  | key d => exact absurd h (by simp [readsKeys])
  | enc d => exact ⟨_, exec_enc d⟩
  | dec d => exact ⟨_, exec_dec d⟩

/-- A command that reads no keys is KEY. -/
theorem eq_key_of_not_readsKeys {i : Instr} (h : readsKeys i = false) : ∃ k, i = .key k := by
  cases i with
  | key k => exact ⟨k, rfl⟩
  | enc d => exact absurd h (by simp [readsKeys])
  | dec d => exact absurd h (by simp [readsKeys])

/-- Everything an accepted command can do. -/
theorem exec_cases (i : Instr) (s : State) :
    (∃ k, i = .key k ∧ exec i s = .next (s.loadKeys (generate k))) ∨
    (readsKeys i = true ∧ s.kv = true ∧ ∃ v, exec i s = .next (s.storeResult v)) ∨
    (readsKeys i = true ∧ s.kv = false ∧ exec i s = .fault .keyNotLoaded) := by
  cases hr : readsKeys i with
  | false =>
    obtain ⟨k, rfl⟩ := eq_key_of_not_readsKeys hr
    exact .inl ⟨k, rfl, rfl⟩
  | true =>
    obtain ⟨f, hf⟩ := exec_of_readsKeys hr
    cases hk : s.kv with
    | true => exact .inr (.inl ⟨rfl, rfl, f s.rk, by rw [hf, blockCommand_of_keys _ hk]⟩)
    | false => exact .inr (.inr ⟨rfl, rfl, by rw [hf, blockCommand_of_no_keys _ hk]⟩)

/-- The ways a word is taken: a held code, the reserved opcode, or the command it decodes to. -/
theorem takeCommand_of_fault {s : State} {r : Fault} (w : CmdWord) (h : s.fault = some r) :
    takeCommand w s = .fault r := by
  simp [takeCommand, h]

theorem takeCommand_of_ok {s : State} {w : CmdWord} {i : Instr} (hf : s.fault = none) (hd : decode w = .ok i) :
    takeCommand w s = exec i s := by
  simp [takeCommand, hf, hd]

theorem takeCommand_of_reserved {s : State} {w : CmdWord} (hf : s.fault = none) (hd : decode w = .error .reservedOp) :
    takeCommand w s = .fault .reservedOp := by
  simp [takeCommand, hf, hd]

/-- A read answers the state it was given, or faults. -/
theorem takeRead_cases (p : OutPort) (s : State) :
    (∃ v, observe false p s = .next v ∧ takeRead p s = .next s) ∨
    (∃ r, observe false p s = .fault r ∧ takeRead p s = .fault r) := by
  cases h : observe false p s with
  | next v => exact .inl ⟨v, rfl, by simp [takeRead, h]⟩
  | fault r => exact .inr ⟨r, rfl, by simp [takeRead, h]⟩
  | refused r => exact absurd h (by cases p <;> simp only [observe] <;> (try split) <;> simp)

/-- The four ways a step goes, by the host's list and the command in flight. -/
theorem step_of_reset {s : State} {es : List HostEvent} (h : s.host = .reset :: es) :
    step s = .next (s.withHost es).applyReset := by
  simp [step, stepHost, h, stepEvent]

theorem step_of_event {s : State} {e : HostEvent} {es : List HostEvent} (h : s.host = e :: es)
    (hi : s.inFlight = none) : step s = stepEvent e (s.withHost es) := by
  cases e <;> simp [step, stepHost, h, hi]

theorem step_of_flight {s : State} {f : InFlight} (hi : s.inFlight = some f)
    (h : ∀ es, s.host ≠ .reset :: es) : step s = completeInFlight f s := by
  cases hh : s.host with
  | nil => simp [step, stepHost, hh, hi]
  | cons e es =>
    cases e with
    | reset => exact absurd hh (h es)
    | command w => simp [step, stepHost, hh, hi]
    | read p => simp [step, stepHost, hh, hi]

theorem step_of_nothing {s : State} (h : s.host = []) (hi : s.inFlight = none) : step s = stayIdle s := by
  simp [step, stepHost, h, hi]

/-- A step is one of those four. -/
theorem step_cases (s : State) :
    (∃ es, s.host = .reset :: es ∧ step s = .next (s.withHost es).applyReset) ∨
    (∃ f, s.inFlight = some f ∧ (∀ es, s.host ≠ .reset :: es) ∧ step s = completeInFlight f s) ∨
    (∃ e es, s.host = e :: es ∧ e ≠ .reset ∧ s.inFlight = none ∧ step s = stepEvent e (s.withHost es)) ∨
    (s.host = [] ∧ s.inFlight = none ∧ step s = stayIdle s) := by
  by_cases hr : ∃ es, s.host = .reset :: es
  · obtain ⟨es, h⟩ := hr
    exact .inl ⟨es, h, step_of_reset h⟩
  · have hr' : ∀ es, s.host ≠ .reset :: es := fun es h => hr ⟨es, h⟩
    cases hi : s.inFlight with
    | some f => exact .inr (.inl ⟨f, rfl, hr', step_of_flight hi hr'⟩)
    | none =>
      cases hh : s.host with
      | nil => exact .inr (.inr (.inr ⟨rfl, rfl, step_of_nothing hh hi⟩))
      | cons e es =>
        exact .inr (.inr (.inl ⟨e, es, rfl, fun he => hr' es (he ▸ hh), rfl, step_of_event hh hi⟩))

/-- One more step of a run, by how the step ends. -/
theorem run_of_next {s t : State} (n : Nat) (h : step s = .next t) :
    Host.Core.run Sys2Proof.core (n + 1) s = Host.Core.run Sys2Proof.core n t := by
  have h' : Sys2Proof.core.step s = .next t := h
  simp only [Host.Core.run, h']

theorem run_of_fault {s : State} {r : Fault} (n : Nat) (h : step s = .fault r) :
    Host.Core.run Sys2Proof.core (n + 1) s = .fault r := by
  have h' : Sys2Proof.core.step s = .fault r := h
  simp only [Host.Core.run, h']

/-- An edge with `rst = 1` resets, whatever else is on the ports. -/
theorem edge_of_rst {inp : Inputs} (tm : Timing) (s : State) (h : inp.rst = true) :
    edge tm inp s = .next s.applyReset := by
  simp [edge, h]

theorem edge_of_fault {inp : Inputs} {s : State} {r : Fault} (tm : Timing) (h : inp.rst = false)
    (hf : s.fault = some r) : edge tm inp s = .fault r := by
  simp [edge, h, hf]

theorem edge_of_flight {inp : Inputs} {s : State} {f : InFlight} (tm : Timing) (h : inp.rst = false)
    (hf : s.fault = none) (hi : s.inFlight = some f) : edge tm inp s = flightEdge f s := by
  simp [edge, h, hf, hi]

theorem edge_of_ready {inp : Inputs} {s : State} (tm : Timing) (h : inp.rst = false) (hf : s.fault = none)
    (hi : s.inFlight = none) :
    edge tm inp s = if inp.cmdValid then acceptEdge tm inp.word s else .next s := by
  simp [edge, h, hf, hi, accepts, State.cmdReady]

/-- The hardware's latencies, whatever they are, are each at least 1 (00_scope.md R7). -/
theorem Config_timing_positive : Config.timing.Positive := ⟨Nat.succ_pos _, Nat.succ_pos _⟩

/-- Sixteen rounds are a fold over the round keys in the order chosen. -/
theorem rounds16_eq_foldl (T : SboxTable) (rk : RoundKeys) (order : KeyOrder) (h : U4 × U4) :
    rounds16 T rk order h =
      ((List.finRange 16).map fun i => rk[order.index i]).foldl (feistelRound T) h := by
  simp [rounds16, List.foldl_map]

end Sys2Proof.Machine
end

