-- ==== Sys2Proof/Laws/PerInstr.lean ====
section
/-! SUPPORT. Facts about each command as syntax, one lemma per constructor of Instr. -/

namespace Sys2Proof.Laws.EncodeFields

/-- The word of a command holds its opcode in bits 9:8 and its operand in bits 7:0, its opcode is not the reserved code,
and the command is well formed (30_encoding.md R50, R52, R53). -/
def Statement (i : Instr) : Prop :=
  opField (encode i) = i.opcode ∧ dataField (encode i) = i.data ∧ i.opcode ≠ 0#2 ∧ i.wellFormed = true

/-- The fields of a word made of an opcode and an operand. -/
theorem fields (op : U2) (data : U8) : opField (op ++ data) = op ∧ dataField (op ++ data) = data := by
  constructor
  · simp only [opField, BitVec.extractLsb'_append_eq_left]
  · simp only [dataField, BitVec.extractLsb'_append_eq_right]

theorem key (data : U8) : Statement (.key data) := ⟨(fields _ _).1, (fields _ _).2, by simp [Instr.opcode], rfl⟩

theorem enc (data : U8) : Statement (.enc data) := ⟨(fields _ _).1, (fields _ _).2, by simp [Instr.opcode], rfl⟩

theorem dec (data : U8) : Statement (.dec data) := ⟨(fields _ _).1, (fields _ _).2, by simp [Instr.opcode], rfl⟩

end Sys2Proof.Laws.EncodeFields
end

