-- ==== Sys2Proof/Tests/Slice0.lean ====
section
/-! SUPPORT. The model's own tests. Every expected value is from spec/: the encodings of 30_encoding.md, the vectors of
95_test_vectors.md and the rules' examples. The witnesses show that the statements' hypotheses can be met. -/

namespace Sys2Proof.Tests

open Sys2Proof Sys2Proof.Machine

/-! ### Well-formedness: an ill-formed term for each check -/

theorem test_wf_refuses_wide_opcode : (RawCommand.mk 4 0).wellFormed = false ∧ (RawCommand.mk 4 0).opFits = false := by decide
theorem test_wf_refuses_wide_data : (RawCommand.mk 1 256).wellFormed = false ∧ (RawCommand.mk 1 256).dataFits = false := by decide
theorem test_wf_refuses_reserved_opcode : (RawCommand.mk 0 5).wellFormed = false ∧ (RawCommand.mk 0 5).opNamed = false := by decide
theorem test_wf_accepts_key : (RawCommand.mk 1 0xAB).wellFormed = true ∧ (RawCommand.mk 1 0xAB).word? = some 0x1AB#10 := by decide
theorem test_wide_raw_command_has_no_word : (RawCommand.mk 1 256).word? = none := by decide

/-! ### Decoding: words written out from 30_encoding.md R50, R52 and V9 -/

theorem test_decode_key : decode 0b0110101011#10 = .ok (.key 0xAB) := by decide
theorem test_decode_enc : decode 0b1011111111#10 = .ok (.enc 0xFF) := by decide
theorem test_decode_dec : decode 0b1110010001#10 = .ok (.dec 0x91) := by decide
theorem test_decode_reserved : decode 0b0011111111#10 = .error .reservedOp := by decide
theorem test_encode_listed : encode (.key 0xAB) = 0x1AB ∧ encode (.enc 0x00) = 0x200 ∧ encode (.dec 0x3C) = 0x33C := by decide
theorem test_table_word : decodeTableWord 16 0x1AB = some (.key 0xAB) ∧ decodeTableWord 16 0x0FF = none ∧
    decodeTableWord 16 0x500 = none := by decide

/-! ### Sub-blocks: V1 to V8 -/

/-- V1 and W4. -/
theorem test_rotl4 : [0x0#4, 0x1#4, 0x5#4, 0x8#4, 0xB#4, 0xD#4].map rotl4 = [0x0#4, 0x2#4, 0xA#4, 0x1#4, 0x7#4, 0xB#4] := by decide
/-- V2. -/
theorem test_rotl8 : [0x80#8, 0xAB#8, 0x7F#8, 0x3C#8].map rotl8 = [0x01#8, 0x57#8, 0xFE#8, 0x78#8] := by decide
/-- V3. -/
theorem test_expand : [0x1#4, 0x8#4, 0x5#4, 0xA#4].map expand = [0x22#6, 0x10#6, 0x2B#6, 0x14#6] := by decide
/-- V4. -/
theorem test_sbox_addressing : [0x01#6, 0x20#6, 0x1E#6, 0x2D#6, 0x15#6, 0x2A#6].map (sbox testSboxA) =
    [14#4, 9#4, 14#4, 2#4, 0#4, 2#4] := by decide
/-- V5. -/
theorem test_pc2 : [0x01#6, 0x2C#6, 0x13#6, 0x2F#6].map pc2 = [0x20#6, 0x0D#6, 0x32#6, 0x3D#6] := by decide
/-- V6, key 0x12. -/
theorem test_generate_12 : generate 0x12 = #v[0x01#6, 0x20#6, 0x0A#6, 0x20#6, 0x0A#6, 0x20#6, 0x0A#6, 0x20#6, 0x14#6,
    0x01#6, 0x14#6, 0x01#6, 0x14#6, 0x01#6, 0x14#6, 0x0A#6] := by decide +kernel
/-- V6, key 0x80. -/
theorem test_generate_80 : generate 0x80 = #v[0x10#6, 0x08#6, 0x20#6, 0x08#6, 0x20#6, 0x08#6, 0x20#6, 0x08#6, 0x00#6,
    0x10#6, 0x00#6, 0x10#6, 0x00#6, 0x10#6, 0x00#6, 0x20#6] := by decide +kernel
/-- V7. -/
theorem test_round_function : roundFunction testSboxA 0xA 0x32 = 0x1 ∧ roundFunction testSboxA 0x7 0x15 = 0x5 := by decide
/-- V7. -/
theorem test_feistel_round : feistelRound testSboxA (0x8, 0x5) 0x3D = (0x5, 0xD) := by decide
/-- V8, keys 0x01, 0x3C and 0x5A, in both directions. -/
theorem test_encrypt : encryptBlock testSboxA (generate 0x01) 0x3C = 0xDF ∧
    encryptBlock testSboxA (generate 0x5A) 0xA5 = 0xD6 := by decide +kernel
theorem test_decrypt : decryptBlock testSboxA (generate 0x3C) 0xD6 = 0xAE ∧
    decryptBlock testSboxA (generate 0x01) 0x12 = 0x15 := by decide +kernel

/-! ### The machine: one step on a small state -/

/-- A block between commands, with the round keys of a master key. -/
def keyed (key : U8) (es : List HostEvent) : State :=
  { State.reset with rk := generate key, kv := true, host := es }

/-- P1, first command: `KV` set, `DV` kept, the schedule of key 0x00. -/
theorem test_step_key : ∃ t, step (State.reset.withFetchWord 16 0x100) = .next t ∧ t.kv = true ∧ t.dv = false ∧
    t.rk = Vector.replicate 16 0#6 ∧ t.host = [] := ⟨_, rfl, rfl, rfl, by decide +kernel, rfl⟩
/-- P2: ENC as the first command. -/
theorem test_step_enc_before_key : step (State.reset.withFetchWord 16 0x200) = .fault .keyNotLoaded := rfl
/-- V9: DEC as the first command. -/
theorem test_step_dec_before_key : step (State.reset.withFetchWord 16 0x300) = .fault .keyNotLoaded := rfl
/-- V9 and P4: the reserved word faults whatever `KV` is. -/
theorem test_step_reserved : step (State.reset.withHost [.command 0x000]) = .fault .reservedOp ∧
    step (keyed 0x00 [.command 0x0FF]) = .fault .reservedOp := ⟨rfl, rfl⟩
/-- P3: KEY keeps an earlier result. -/
theorem test_step_key_keeps_result :
    ∃ t, step { keyed 0x5A [.command 0x13C] with dout := 0xD6, dv := true } = .next t ∧ t.dout = 0xD6 ∧ t.dv = true :=
  ⟨_, rfl, rfl, rfl⟩
theorem test_step_enc : ∃ t, step (keyed 0xAB [.command 0x200]) = .next t ∧
    t.dout = encryptBlock Config.sboxTable (generate 0xAB) 0x00 ∧ t.dv = true := ⟨_, rfl, rfl, rfl⟩
theorem test_step_dec : ∃ t, step (keyed 0xAB [.command 0x391]) = .next t ∧
    t.dout = decryptBlock Config.sboxTable (generate 0xAB) 0x91 ∧ t.dv = true := ⟨_, rfl, rfl, rfl⟩
/-- V9: `dout` after only a KEY faults; `dout_valid` reads 0. -/
theorem test_read_dout_unwritten : step (keyed 0x00 [.read .dout]) = .fault .unwrittenRead ∧
    observe false .doutValid (keyed 0x00 []) = .next (.bit false) := ⟨rfl, rfl⟩
/-- R28: `RK[0]` in bits 5:0, `RK[15]` in bits 95:90, of the schedule of key 0xAB. -/
theorem test_rk_bus : (rkBusOf (generate 0xAB)).extractLsb' 0 6 = 0x1A#6 ∧
    (rkBusOf (generate 0xAB)).extractLsb' 90 6 = 0x3D#6 ∧ (rkBusOf (generate 0xAB)).extractLsb' 6 6 = 0x2D#6 := by
  decide +kernel
/-- P2: the final observation. -/
theorem test_final_observation_after_fault :
    finalObservation (runHost [.command 0x200, .command 0x1AB] State.reset) =
      ⟨some .keyNotLoaded, false, none, false, none⟩ := rfl
/-- R56. -/
theorem test_assemble : assembleLine ['k', 'e', 'Y', ' ', '0', 'x', 'A', 'B', ' ', ';', 'a'] = some 0x1AB ∧
    assembleLine ['D', 'E', 'C', ' ', '0', 'x', '3', 'C'] = some 0x33C ∧
    assembleLine ['N', 'O', 'P', ' ', '0', 'x', '0', '0'] = none ∧
    assembleLine ['E', 'N', 'C', ' ', '0', 'x', '1', '0', '0'] = none := by decide +kernel

/-! ### The handshake: LAT_KEY = 2 -/

/-- Latencies for the tests; the hardware's are unknown. -/
def someTiming : Timing := ⟨2, 3⟩

/-- `rst = 0` and a command on the ports. -/
def present (op : U2) (data : U8) : Inputs := ⟨false, true, op, data⟩

/-- R138: after the acceptance edge `cmd_ready` and `key_valid` read 0; two edges later the key is loaded. -/
theorem test_edge_key : ∃ u t, edge someTiming (present 0b01 0x00) (keyed 0xFF []) = .next u ∧
    u.cmdReady false = false ∧ u.keyValid = false ∧ u.kv = true ∧
    runEdges someTiming [present 0b01 0x00, present 0b11 0x55, present 0b10 0x55] (keyed 0xFF []) = .next t ∧
    t = keyed 0x00 [] := ⟨_, _, rfl, rfl, rfl, rfl, rfl, rfl⟩
/-- R132: reset abandons a command in flight. -/
theorem test_edge_reset_abandons : ∃ t, edge someTiming ⟨true, true, 0b01, 0xAB⟩
    ((keyed 0xFF []).startCommand (.key 0x00) 1) = .next t ∧ t.kv = false ∧ t.inFlight = none := ⟨_, rfl, rfl, rfl⟩

/-! ### Witnesses: each statement's hypotheses can be met together -/

theorem witness_rotate_cycle : (8 % 4 = 0) ∧ (3 < 4) := by decide
theorem witness_zero_table : ∀ row col, testSboxZ row col = 0 := fun _ _ => rfl
theorem witness_zero_round : roundFunction testSboxZ 0x5 0x2D = 0 := by decide
theorem witness_equal_keys : ∀ i j : Fin 16, (generate 0x78)[i] = (generate 0x78)[j] := by decide
theorem witness_constant_halves : (pc1 0x78).extractLsb' 4 4 = 0xF#4 ∧ (pc1 0x78).extractLsb' 0 4 = 0x0#4 := by decide
theorem witness_key_twice : ∃ t u, exec (.key 0xAB) State.reset = .next t ∧ exec (.key 0xAB) t = .next u :=
  ⟨_, _, rfl, rfl⟩
theorem witness_enc_completes : (keyed 0xAB []).kv = true ∧ ∃ t, exec (.enc 0x00) (keyed 0xAB []) = .next t := ⟨rfl, _, rfl⟩
theorem witness_enc_faults : State.reset.kv = false ∧ exec (.enc 0x00) State.reset = .fault .keyNotLoaded := ⟨rfl, rfl⟩
theorem witness_enc_constant_key : (0x78#8 = 0x00 ∨ 0x78#8 = 0x78 ∨ 0x78#8 = 0x87 ∨ 0x78#8 = 0xFF) ∧
    (keyed 0x78 []).rk = generate 0x78 := ⟨by decide, rfl⟩
theorem witness_dec_then_enc : ∃ t u, exec (.dec 0x91) (keyed 0xAB []) = .next t ∧ exec (.enc t.dout) t = .next u :=
  ⟨_, _, rfl, rfl⟩
theorem witness_masks : 0x0FF#10 &&& 0x300#10 = 0x000#10 ∧ 0x1FF#10 &&& 0x300#10 = 0x100#10 ∧
    0x200#10 &&& 0x300#10 = 0x200#10 ∧ 0x3FF#10 &&& 0x300#10 = 0x300#10 := by decide
theorem witness_block_word : decode 0x2FF#10 = .ok (.enc 0xFF) ∧ readsKeys (.enc 0xFF) = true ∧
    (keyed 0xAB []).kv = true := ⟨by decide, rfl, rfl⟩
theorem witness_named_opcode : (0x100#10).extractLsb' 8 2 ≠ 0b00#2 := by decide
theorem witness_line_assembles : assembleLine ['E', 'N', 'C', ' ', '0', 'x', 'f', '0'] = some 0x2F0 := by decide +kernel
theorem witness_line_refused : ['N', 'O', 'P'].map Char.toUpper ≠ ['K', 'E', 'Y'] ∧
    ['N', 'O', 'P'].map Char.toUpper ≠ ['E', 'N', 'C'] ∧ ['N', 'O', 'P'].map Char.toUpper ≠ ['D', 'E', 'C'] := by decide
theorem witness_ready_command : (keyed 0xAB [.command 0x1AB]).Ready ∧
    (keyed 0xAB [.command 0x1AB]).host = .command 0x1AB :: [] ∧ decode 0x1AB = .ok (.key 0xAB) := by decide
theorem witness_idle : State.reset.Ready ∧ State.reset.host = [] ∧ (Inputs.mk false false 0 0).cmdValid = false := by decide
theorem witness_frames : (∃ t, exec (.key 0x12) State.reset = .next t) ∧ (∃ t, exec (.dec 0x12) (keyed 0x12 []) = .next t) :=
  ⟨⟨_, rfl⟩, _, rfl⟩
theorem witness_no_reset_step : (∃ t, step (keyed 0xAB [.command 0x2FF]) = .next t) ∧
    ∀ es, (keyed 0xAB [.command 0x2FF]).host ≠ .reset :: es := ⟨⟨_, rfl⟩, by simp [keyed]⟩
theorem witness_two_commands : (keyed 0xAB [.command 0x15A, .command 0x2A5]).Ready ∧ decode 0x15A = .ok (.key 0x5A) ∧
    decode 0x2A5 = .ok (.enc 0xA5) := by decide
theorem witness_two_commands_reversed : (keyed 0xAB [.command 0x2A5, .command 0x15A]).kv = true ∧
    (keyed 0xAB [.command 0x2A5, .command 0x15A]).Ready := by decide
theorem witness_reserved : (State.reset.withHost [.command (0b00#2 ++ 0xFF#8)]).Ready ∧ accepts (present 0b00 0xFF) State.reset = true ∧
    (present 0b00 0xFF).word = 0b00#2 ++ 0xFF#8 := by decide
theorem witness_keyless : State.reset.Ready ∧ State.reset.kv = false ∧ accepts (present 0b11 0x00) State.reset = true ∧
    (present 0b11 0x00).word = 0b11#2 ++ 0x00#8 := by decide
theorem witness_written_ports : (keyed 0xAB []).inFlight = none ∧ (keyed 0xAB []).kv = true ∧
    State.reset.kv = false ∧ State.reset.dv = false ∧ { keyed 0xAB [] with dv := true }.dv = true := by decide
theorem witness_faulting_step : (State.reset.withHost [.command 0x200]).fault = none ∧
    step (State.reset.withHost [.command 0x200]) = .fault .keyNotLoaded := ⟨rfl, rfl⟩
theorem witness_faulted_reset : ∃ t, step { State.reset with fault := some .reservedOp, host := [.reset] } = .next t ∧
    t.fault = none := ⟨_, rfl, rfl⟩
theorem witness_faulted_read : ∃ t, step { State.reset with fault := some .reservedOp, host := [.read .keyValid] } = .next t :=
  ⟨_, rfl⟩
theorem witness_duty_kept_and_broken : HostEvent.duty true false (.command 0x200) = true ∧
    HostEvent.duty false false (.command 0x200) = false ∧ HostEvent.duty true true (.command 0x000) = false ∧
    HostEvent.duty true false (.read .dout) = false := by decide
theorem witness_dutiful_list : State.reset.Ready ∧
    keepsDuties false false [.command 0x1AB, .command 0x200, .read .dout, .reset, .read .keyValid] = true ∧
    keepsDuties false false [.command 0x1AB, .reset, .command 0x200] = false := by decide
theorem witness_reset_edge : (Inputs.mk true true 0b01 0xAB).rst = true := rfl
theorem witness_reset_in_flight : ((keyed 0xFF [.reset]).startCommand (.key 0x00) 1).host = .reset :: [] := rfl
theorem witness_not_accepted : accepts (present 0b01 0x00) ((keyed 0xFF []).startCommand (.key 0x00) 2) = false ∧
    accepts (present 0b11 0x55) ((keyed 0xFF []).startCommand (.key 0x00) 2) = false := by decide
theorem witness_accepted : accepts (present 0b01 0x00) State.reset = true ∧
    ∃ t, exec (.key 0x00) State.reset = .next t := ⟨rfl, _, rfl⟩
theorem witness_refinement : someTiming.Positive ∧ (keyed 0xAB []).Ready ∧ decode (present 0b10 0x00).word = .ok (.enc 0x00) ∧
    [present 0b01 0x00, present 0b01 0x00, present 0b01 0x00].length = latency someTiming (.enc 0x00) ∧
    (∀ x ∈ [present 0b01 0x00], x.rst = false) := by decide
theorem witness_in_flight : (keyed 0xAB []).Ready ∧ [present 0b01 0x00].length < latency someTiming (.key 0x12) ∧
    ∃ t, exec (.key 0x12) (keyed 0xAB []) = .next t := ⟨by decide, by decide, _, rfl⟩
theorem witness_read_of_bus : ∃ v, observe false .rkBus (keyed 0xAB []) = .next v := ⟨_, rfl⟩
theorem witness_read_step : ∃ t, step (keyed 0xAB [.read .rkBus]) = .next t := ⟨_, rfl⟩
theorem witness_invariant : (keyed 0xAB [.command 0x2FF]).Inv ∧ ∃ t, step (keyed 0xAB [.command 0x2FF]) = .next t :=
  ⟨⟨fun _ => ⟨0xAB, rfl⟩, fun h => absurd h (by decide), by simp [keyed]⟩, _, rfl⟩
theorem witness_invariant_edge : someTiming.Positive ∧ ((keyed 0xAB []).startCommand (.enc 0x00) 1).Inv ∧
    ∃ t, edge someTiming (present 0b10 0x00) ((keyed 0xAB []).startCommand (.enc 0x00) 1) = .next t :=
  ⟨by decide, ⟨fun _ => ⟨0xAB, rfl⟩, fun h => absurd h (by decide), by simp [readsKeys, keyed]⟩, _, rfl⟩
theorem witness_agree : State.reset.Agree { State.reset with rk := Vector.replicate 16 0x3F#6, dout := 0xFF } :=
  ⟨rfl, rfl, rfl, rfl, rfl, fun h => absurd h (by decide), fun h => absurd h (by decide)⟩
theorem witness_run_fault : State.reset.fault = none ∧ stepEvent (.command 0x000) State.reset = .fault .reservedOp ∧
    ∃ t, stepEvent (.command 0x1AB) State.reset = .next t := ⟨rfl, rfl, _, rfl⟩

end Sys2Proof.Tests
end

section
/-! Every edge keeps the invariant: first what each state operation needs to keep it, then what an edge can do. -/

namespace Sys2Proof.Machine

/-! ### One rule per state operation -/

theorem State.Inv.applyReset (s : State) : s.applyReset.Inv where
  keys h := by simp at h
  result h := by simp at h
  flight f h := by simp at h

/-- KEY loads the schedule of its own master key (41_key_schedule.md R84). -/
theorem State.Inv.loadKeys {s : State} (hs : s.Inv) (key : U8) : (s.loadKeys (generate key)).Inv where
  keys _ := ⟨key, rfl⟩
  result _ := rfl
  flight f hf := ⟨(hs.flight f hf).1, fun _ => rfl⟩

theorem State.Inv.storeResult {s : State} (hs : s.Inv) (hk : s.kv = true) (v : U8) : (s.storeResult v).Inv where
  keys := hs.keys
  result _ := hk
  flight := hs.flight

theorem State.Inv.clearInFlight {s : State} (hs : s.Inv) : s.clearInFlight.Inv where
  keys := hs.keys
  result := hs.result
  flight f hf := by simp at hf

theorem State.Inv.startCommand {s : State} (hs : s.Inv) {i : Instr} {n : Nat} (hn : 1 ≤ n)
    (hk : readsKeys i = true → s.kv = true) : (s.startCommand i n).Inv where
  keys := hs.keys
  result := hs.result
  flight f hf := by
    obtain rfl : ⟨i, n⟩ = f := Option.some.inj hf
    exact ⟨hn, hk⟩

/-! ### Commands: how they complete and what completing keeps -/

/-- A command that completes and reads keys found them loaded (60_exceptions.md R112). -/
theorem kv_of_exec_next {i : Instr} {s t : State} (h : exec i s = .next t) (hr : readsKeys i = true) :
    s.kv = true := by
  obtain ⟨k, rfl, -⟩ | ⟨-, hk, -⟩ | ⟨-, -, hf⟩ := exec_cases i s
  · simp [readsKeys] at hr
  · exact hk
  · simp [hf] at h

theorem exec_keeps_inv {i : Instr} {s t : State} (hs : s.Inv) (h : exec i s = .next t) : t.Inv := by
  obtain ⟨k, -, hn⟩ | ⟨-, hk, v, hn⟩ | ⟨-, -, hf⟩ := exec_cases i s
  · obtain rfl : s.loadKeys (generate k) = t := by simpa [hn] using h
    exact hs.loadKeys k
  · obtain rfl : s.storeResult v = t := by simpa [hn] using h
    exact hs.storeResult hk v
  · simp [hf] at h

/-- The command in flight completes exactly on a block without a fault, by its meaning. -/
theorem completeInFlight_eq_next {f : InFlight} {s t : State} :
    completeInFlight f s = .next t ↔ s.fault = none ∧ exec f.instr s.clearInFlight = .next t := by
  cases hf : s.fault <;> simp [completeInFlight, hf]

theorem completeInFlight_keeps_inv {f : InFlight} {s t : State} (hs : s.Inv)
    (h : completeInFlight f s = .next t) : t.Inv :=
  exec_keeps_inv hs.clearInFlight (completeInFlight_eq_next.mp h).2

/-! ### Edges: the edge that accepts a command and those with one in flight -/

theorem one_le_latency {tm : Timing} (htm : tm.Positive) (i : Instr) : 1 ≤ latency tm i := by
  obtain ⟨hkey, hblock⟩ := htm
  cases i with
  | key _ => exact hkey
  | enc _ => exact hblock
  | dec _ => exact hblock

/-- An acceptance edge that does not fault starts the decoded command, which could complete at once (log 20). -/
theorem acceptEdge_next {tm : Timing} {w : CmdWord} {s t : State} (h : acceptEdge tm w s = .next t) :
    ∃ i u, decode w = .ok i ∧ exec i s = .next u ∧ t = s.startCommand i (latency tm i) := by
  cases hd : decode w with
  | error e => cases e; simp [acceptEdge, hd] at h
  | ok i =>
    cases he : exec i s with
    | next u => exact ⟨i, u, rfl, he, by simpa [acceptEdge, hd, he] using h.symm⟩
    | fault r => simp [acceptEdge, hd, he] at h
    | refused r => simp [acceptEdge, hd, he] at h

theorem acceptEdge_keeps_inv {tm : Timing} {w : CmdWord} {s t : State} (htm : tm.Positive) (hs : s.Inv)
    (h : acceptEdge tm w s = .next t) : t.Inv := by
  obtain ⟨i, u, -, he, rfl⟩ := acceptEdge_next h
  exact hs.startCommand (one_le_latency htm i) (kv_of_exec_next he)

/-- The last edge of a command completes it (70_reset_and_hazards.md R138). -/
theorem flightEdge_of_last {f : InFlight} (s : State) (h : f.remaining ≤ 1) :
    flightEdge f s = completeInFlight f s := if_pos h

/-- An earlier edge of a command only counts (70_reset_and_hazards.md R138). -/
theorem flightEdge_of_not_last {f : InFlight} (s : State) (h : ¬ f.remaining ≤ 1) :
    flightEdge f s = .next (s.startCommand f.instr (f.remaining - 1)) := if_neg h

theorem flightEdge_keeps_inv {f : InFlight} {s t : State} (hs : s.Inv) (hi : s.inFlight = some f)
    (h : flightEdge f s = .next t) : t.Inv := by
  by_cases hlast : f.remaining ≤ 1
  · rw [flightEdge_of_last s hlast] at h
    exact completeInFlight_keeps_inv hs h
  · obtain rfl : s.startCommand f.instr (f.remaining - 1) = t := by
      simpa [flightEdge_of_not_last s hlast] using h
    exact hs.startCommand (by omega) (hs.flight f hi).2

/-- Settles O47: by the kind of edge (reset, faulted, in flight, accepting, idle). -/
theorem edgeKeepsInvariant : Obligations.EdgeKeepsInvariant := by
  intro tm inp s t htm hs h
  cases hrst : inp.rst with
  | true =>
    obtain rfl : s.applyReset = t := by simpa [edge_of_rst tm s hrst] using h
    exact State.Inv.applyReset s
  | false =>
    cases hf : s.fault with
    | some r => simp [edge_of_fault tm hrst hf] at h
    | none =>
      cases hi : s.inFlight with
      | some f =>
        rw [edge_of_flight tm hrst hf hi] at h
        exact flightEdge_keeps_inv hs hi h
      | none =>
        rw [edge_of_ready tm hrst hf hi] at h
        split at h
        · exact acceptEdge_keeps_inv htm hs h
        · obtain rfl : s = t := by simpa using h
          exact hs

end Sys2Proof.Machine
end

section
/-! What a step that answers a next state has done, said once; from it the invariant of the step, the registers a step
writes, and the finality of faults. -/

namespace Sys2Proof.Machine

/-- A step of `s` runs the command `i` on the block `u`: the command in flight completes on the block it has left, or the
word next in the host's list is taken off the list and accepted. -/
inductive State.RunsCommand (s : State) : Instr → State → Prop
  | completes {i : Instr} {n : Nat} (hi : s.inFlight = some ⟨i, n⟩) : s.RunsCommand i s.clearInFlight
  | accepts {w : CmdWord} {es : List HostEvent} {i : Instr} (hh : s.host = .command w :: es)
      (hd : decode w = .ok i) : s.RunsCommand i (s.withHost es)

/-! ### What a step can do -/

/-- A word is taken exactly on a block without a fault, by the meaning of the command it decodes to. -/
theorem takeCommand_eq_next {w : CmdWord} {s t : State} :
    takeCommand w s = .next t ↔ s.fault = none ∧ ∃ i, decode w = .ok i ∧ exec i s = .next t := by
  cases hf : s.fault with
  | some r => simp [takeCommand_of_fault w hf]
  | none =>
    cases hd : decode w with
    | ok i => simp [takeCommand_of_ok hf hd]
    | error e => cases e; simp [takeCommand_of_reserved hf hd]

theorem takeRead_next {p : OutPort} {s t : State} (h : takeRead p s = .next t) : t = s := by
  obtain ⟨v, -, hn⟩ | ⟨r, -, hf⟩ := takeRead_cases p s
  · simpa [hn] using h.symm
  · simp [hf] at h

theorem stayIdle_eq_next {s t : State} : stayIdle s = .next t ↔ s.fault = none ∧ t = s := by
  cases hf : s.fault <;> simp [stayIdle, hf, eq_comm]

/-- A step that answers a next state has reset the block, run a command without a fault code held, read a port, or idled
without a fault code held. -/
theorem step_next {s t : State} (h : step s = .next t) :
    (∃ es, s.host = .reset :: es ∧ t = (s.withHost es).applyReset) ∨
    (s.fault = none ∧ ∃ i u, s.RunsCommand i u ∧ exec i u = .next t) ∨
    (∃ p es, s.host = .read p :: es ∧ t = s.withHost es) ∨
    (s.fault = none ∧ t = s) := by
  obtain ⟨es, hh, hs⟩ | ⟨f, hi, -, hs⟩ | ⟨e, es, hh, he, -, hs⟩ | ⟨-, -, hs⟩ := step_cases s <;> rw [hs] at h
  · exact .inl ⟨es, hh, (Host.Outcome.next.inj h).symm⟩
  · obtain ⟨hf, hx⟩ := completeInFlight_eq_next.mp h
    exact .inr (.inl ⟨hf, f.instr, _, .completes hi, hx⟩)
  · cases e with
    | reset => exact absurd rfl he
    | command w =>
      obtain ⟨hf, i, hd, hx⟩ := takeCommand_eq_next.mp h
      exact .inr (.inl ⟨hf, i, _, .accepts hh hd, hx⟩)
    | read p => exact .inr (.inr (.inl ⟨p, es, hh, takeRead_next h⟩))
  · exact .inr (.inr (.inr (stayIdle_eq_next.mp h)))

/-! ### The invariant -/

theorem State.Inv.withHost {s : State} (hs : s.Inv) (es : List HostEvent) : (s.withHost es).Inv where
  keys := hs.keys
  result := hs.result
  flight := hs.flight

theorem State.RunsCommand.inv {s u : State} {i : Instr} (h : s.RunsCommand i u) (hs : s.Inv) : u.Inv := by
  cases h with
  | completes => exact hs.clearInFlight
  | accepts => exact hs.withHost _

/-- Settles O45: the reset state is what a reset of it gives, with no flag set and nothing in flight. -/
theorem invariantAtReset : Obligations.InvariantAtReset :=
  State.Inv.applyReset State.reset

/-- Settles O46: by what the step has done (reset, run a command, read, idled). -/
theorem stepKeepsInvariant : Obligations.StepKeepsInvariant := by
  intro s t hs h
  obtain ⟨es, -, rfl⟩ | ⟨-, i, u, hu, hx⟩ | ⟨p, es, -, rfl⟩ | ⟨-, rfl⟩ := step_next h
  · exact State.Inv.applyReset _
  · exact exec_keeps_inv (hu.inv hs) hx
  · exact hs.withHost es
  · exact hs

/-! ### The registers a step writes -/

/-- A command that completes is a KEY that loads its schedule, or a block command that found keys and stores a result. -/
theorem exec_next {i : Instr} {s t : State} (h : exec i s = .next t) :
    (∃ k, i = .key k ∧ t = s.loadKeys (generate k)) ∨
    (readsKeys i = true ∧ s.kv = true ∧ ∃ v, t = s.storeResult v) := by
  obtain ⟨k, hk, hn⟩ | ⟨hr, hk, v, hn⟩ | ⟨-, -, hf⟩ := exec_cases i s
  · exact .inl ⟨k, hk, Host.Outcome.next.inj (h.symm.trans hn)⟩
  · exact .inr ⟨hr, hk, v, Host.Outcome.next.inj (h.symm.trans hn)⟩
  · simp [hf] at h

/-- Where the command comes from: it was in flight, or it is the word next in the host's list. -/
theorem State.RunsCommand.source {s u : State} {i : Instr} (h : s.RunsCommand i u) :
    (∃ n, s.inFlight = some ⟨i, n⟩) ∨ ∃ w es, s.host = .command w :: es ∧ decode w = .ok i := by
  cases h with
  | completes hi => exact .inl ⟨_, hi⟩
  | accepts hh hd => exact .inr ⟨_, _, hh, hd⟩

/-- The block that a command runs on has the registers of the block before the step. -/
theorem State.RunsCommand.registers {s u : State} {i : Instr} (h : s.RunsCommand i u) :
    u.rk = s.rk ∧ u.kv = s.kv ∧ u.dout = s.dout ∧ u.dv = s.dv ∧ u.fault = s.fault := by
  cases h <;> simp

/-- Settles O28: a KEY leaves the result as it was, a block command the keys, and a read or an idle step both. -/
theorem registersWrittenOnlyByTheirCommands : Obligations.RegistersWrittenOnlyByTheirCommands := by
  intro s t h hnr
  obtain ⟨es, hh, -⟩ | ⟨-, i, u, hu, hx⟩ | ⟨p, es, -, rfl⟩ | ⟨-, rfl⟩ := step_next h
  · exact absurd hh (hnr es)
  · obtain ⟨hrk, hkv, hdout, hdv, hfault⟩ := hu.registers
    obtain ⟨k, rfl, rfl⟩ | ⟨hr, hk, v, rfl⟩ := exec_next hx
    · exact ⟨hfault, .inr ⟨k, rfl, rfl, hdout, hdv, hu.source⟩, .inl ⟨hdout, hdv⟩⟩
    · exact ⟨hfault, .inl ⟨hrk, hkv⟩, .inr ⟨i, hr, hkv ▸ hk, rfl, hrk, hkv, hu.source⟩⟩
  · exact ⟨rfl, .inl ⟨rfl, rfl⟩, .inl ⟨rfl, rfl⟩⟩
  · exact ⟨rfl, .inl ⟨rfl, rfl⟩, .inl ⟨rfl, rfl⟩⟩

/-! ### Faults -/

/-- From a block that holds a code only a reset or a port read leads on. -/
theorem step_next_of_fault {s t : State} {c : Fault} (hc : s.fault = some c) (h : step s = .next t) :
    (∃ es, s.host = .reset :: es ∧ t = (s.withHost es).applyReset) ∨
    (∃ p es, s.host = .read p :: es ∧ t = s.withHost es) := by
  obtain hreset | ⟨hf, -⟩ | hread | ⟨hf, -⟩ := step_next h
  · exact .inl hreset
  · simp [hc] at hf
  · exact .inr hread
  · simp [hc] at hf

/-- Settles O33: `settle` writes the record once, and a code stops every command, idle step and edge without `rst`. -/
theorem faultsArePreciseAndFinal : Obligations.FaultsArePreciseAndFinal := by
  refine ⟨?precise, ?kept, ?stuck, ?edges, rfl⟩
  case precise =>
    intro s r h hf
    rw [h]
    exact State.recordFault_of_none r hf
  case kept => exact fun s r c hc => State.recordFault_of_some r hc
  case stuck =>
    intro s t c hc h
    obtain ⟨es, hh, rfl⟩ | hread := step_next_of_fault hc h
    · exact .inl ⟨es, hh, rfl, rfl⟩
    · exact .inr hread
  case edges =>
    exact fun tm inp s c hc =>
      ⟨fun hrst => edge_of_fault tm hrst hc, fun hrst => ⟨_, edge_of_rst tm s hrst, rfl⟩⟩

end Sys2Proof.Machine
end

section
/-! The states that differ only where a register holds no value cannot be told apart: every state operation keeps
`Agree`, then every command, step, edge and port does. -/

namespace Sys2Proof.Machine

/-! ### One rule per state operation -/

theorem State.Agree.withHost {s t : State} (h : s.Agree t) (es : List HostEvent) :
    (s.withHost es).Agree (t.withHost es) :=
  { h with host := rfl }

theorem State.Agree.clearInFlight {s t : State} (h : s.Agree t) : s.clearInFlight.Agree t.clearInFlight :=
  { h with inFlight := rfl }

theorem State.Agree.startCommand {s t : State} (h : s.Agree t) (i : Instr) (n : Nat) :
    (s.startCommand i n).Agree (t.startCommand i n) :=
  { h with inFlight := rfl }

/-- KEY writes all of `RK`, so what it held before is gone. -/
theorem State.Agree.loadKeys {s t : State} (h : s.Agree t) (ks : RoundKeys) :
    (s.loadKeys ks).Agree (t.loadKeys ks) :=
  { h with kv := rfl, rk := fun _ => rfl }

theorem State.Agree.storeResult {s t : State} (h : s.Agree t) (v : U8) :
    (s.storeResult v).Agree (t.storeResult v) :=
  { h with dv := rfl, dout := fun _ => rfl }

theorem State.Agree.applyReset {s t : State} (h : s.Agree t) : s.applyReset.Agree t.applyReset where
  kv := rfl
  dv := rfl
  fault := rfl
  inFlight := rfl
  host := h.host
  rk _ := rfl
  dout _ := rfl

/-! ### The ports -/

theorem State.Agree.keyValid_eq {s t : State} (h : s.Agree t) : s.keyValid = t.keyValid := by
  simp only [State.keyValid, State.keyInFlight, h.kv, h.inFlight]

theorem State.Agree.doutValid_eq {s t : State} (h : s.Agree t) : s.doutValid = t.doutValid := by
  simp only [State.doutValid, State.blockInFlight, h.dv, h.inFlight]

theorem State.Agree.cmdReady_eq {s t : State} (h : s.Agree t) (rst : Bool) : s.cmdReady rst = t.cmdReady rst := by
  simp only [State.cmdReady, h.inFlight]

theorem kv_of_keyValid {s : State} (h : s.keyValid = true) : s.kv = true :=
  (Bool.and_eq_true_iff.mp h).1

theorem dv_of_doutValid {s : State} (h : s.doutValid = true) : s.dv = true :=
  (Bool.and_eq_true_iff.mp h).1

/-- The ports `dout` and `rk_bus` show a register only where it holds a value (60_exceptions.md R113). -/
theorem observe_agree {s t : State} (h : s.Agree t) (rst : Bool) (p : OutPort) : observe rst p s = observe rst p t := by
  cases p with
  | cmdReady => simp only [observe, h.fault, h.cmdReady_eq]
  | doutValid => simp only [observe, h.doutValid_eq]
  | keyValid => simp only [observe, h.keyValid_eq]
  | dout =>
    simp only [observe, ← h.doutValid_eq]
    split
    next hv => rw [h.dout (dv_of_doutValid hv)]
    next => rfl
  | rkBus =>
    simp only [observe, ← h.keyValid_eq]
    split
    next hv => rw [h.rk (kv_of_keyValid hv)]
    next => rfl

theorem finalObservation_agree {s t : State} (h : s.Agree t) : finalObservation s = finalObservation t := by
  have hrk : (if t.kv then some s.rk else none) = if t.kv then some t.rk else none :=
    ite_congr rfl (fun hk => congrArg some (h.rk (h.kv.trans hk))) fun _ => rfl
  have hdout : (if t.dv then some s.dout else none) = if t.dv then some t.dout else none :=
    ite_congr rfl (fun hd => congrArg some (h.dout (h.dv.trans hd))) fun _ => rfl
  simp only [finalObservation, h.fault, h.kv, h.dv, hrk, hdout]

/-! ### Commands -/

/-- A block command computes from `RK` only where it holds a schedule. -/
theorem blockCommand_agree {s t : State} (h : s.Agree t) (f : RoundKeys → U8) :
    OutcomesAgree (blockCommand f s) (blockCommand f t) := by
  cases hk : s.kv with
  | true =>
    rw [blockCommand_of_keys f hk, blockCommand_of_keys f (h.kv ▸ hk), h.rk hk]
    exact h.storeResult _
  | false =>
    rw [blockCommand_of_no_keys f hk, blockCommand_of_no_keys f (h.kv ▸ hk)]
    rfl

theorem exec_agree {s t : State} (h : s.Agree t) (i : Instr) : OutcomesAgree (exec i s) (exec i t) := by
  cases i with
  | key k => exact h.loadKeys (generate k)
  | enc b =>
    rw [exec_enc, exec_enc]
    exact blockCommand_agree h _
  | dec b =>
    rw [exec_dec, exec_dec]
    exact blockCommand_agree h _

/-! ### The step -/

theorem takeCommand_agree {s t : State} (h : s.Agree t) (w : CmdWord) :
    OutcomesAgree (takeCommand w s) (takeCommand w t) := by
  cases hf : s.fault with
  | some r =>
    rw [takeCommand_of_fault w hf, takeCommand_of_fault w (h.fault ▸ hf)]
    rfl
  | none =>
    cases hd : decode w with
    | ok i =>
      rw [takeCommand_of_ok hf hd, takeCommand_of_ok (h.fault ▸ hf) hd]
      exact exec_agree h i
    | error e =>
      cases e
      rw [takeCommand_of_reserved hf hd, takeCommand_of_reserved (h.fault ▸ hf) hd]
      rfl

theorem takeRead_agree {s t : State} (h : s.Agree t) (p : OutPort) : OutcomesAgree (takeRead p s) (takeRead p t) := by
  simp only [takeRead, ← observe_agree h]
  cases observe false p s with
  | next v => exact h
  | fault r => rfl
  | refused r => rfl

theorem stepEvent_agree {s t : State} (h : s.Agree t) (e : HostEvent) :
    OutcomesAgree (stepEvent e s) (stepEvent e t) := by
  cases e with
  | reset => exact h.applyReset
  | command w => exact takeCommand_agree h w
  | read p => exact takeRead_agree h p

theorem completeInFlight_agree {s t : State} (h : s.Agree t) (f : InFlight) :
    OutcomesAgree (completeInFlight f s) (completeInFlight f t) := by
  simp only [completeInFlight, ← h.fault]
  cases s.fault with
  | some r => rfl
  | none => exact exec_agree h.clearInFlight f.instr

theorem stayIdle_agree {s t : State} (h : s.Agree t) : OutcomesAgree (stayIdle s) (stayIdle t) := by
  simp only [stayIdle, ← h.fault]
  cases s.fault with
  | some r => rfl
  | none => exact h

/-- Both steps go the same of the four ways, which the host's list and the command in flight choose. -/
theorem step_agree {s t : State} (h : s.Agree t) : OutcomesAgree (step s) (step t) := by
  obtain ⟨es, hh, hs⟩ | ⟨f, hi, hnr, hs⟩ | ⟨e, es, hh, -, hi, hs⟩ | ⟨hh, hi, hs⟩ := step_cases s <;>
    rw [hs]
  · rw [step_of_reset (h.host ▸ hh)]
    exact (h.withHost es).applyReset
  · rw [step_of_flight (h.inFlight ▸ hi) (h.host ▸ hnr)]
    exact completeInFlight_agree h f
  · rw [step_of_event (h.host ▸ hh) (h.inFlight ▸ hi)]
    exact stepEvent_agree (h.withHost es) e
  · rw [step_of_nothing (h.host ▸ hh) (h.inFlight ▸ hi)]
    exact stayIdle_agree h

/-! ### The edge -/

/-- Whether a command starts is told by its meaning, which agrees, and not by the state it would lead to. -/
theorem acceptEdge_agree {s t : State} (h : s.Agree t) (tm : Timing) (w : CmdWord) :
    OutcomesAgree (acceptEdge tm w s) (acceptEdge tm w t) := by
  cases hd : decode w with
  | error e =>
    cases e
    simp only [acceptEdge, hd]
    rfl
  | ok i =>
    simp only [acceptEdge, hd]
    match exec i s, exec i t, exec_agree h i with
    | .next _, .next _, _ => exact h.startCommand i _
    | .fault _, .fault _, hr => exact hr
    | .refused _, .refused _, hr => exact hr

theorem flightEdge_agree {s t : State} (h : s.Agree t) (f : InFlight) :
    OutcomesAgree (flightEdge f s) (flightEdge f t) := by
  by_cases hlast : f.remaining ≤ 1
  · rw [flightEdge_of_last s hlast, flightEdge_of_last t hlast]
    exact completeInFlight_agree h f
  · rw [flightEdge_of_not_last s hlast, flightEdge_of_not_last t hlast]
    exact h.startCommand _ _

theorem edge_agree {s t : State} (h : s.Agree t) (tm : Timing) (inp : Inputs) :
    OutcomesAgree (edge tm inp s) (edge tm inp t) := by
  cases hrst : inp.rst with
  | true =>
    rw [edge_of_rst tm s hrst, edge_of_rst tm t hrst]
    exact h.applyReset
  | false =>
    cases hf : s.fault with
    | some r =>
      rw [edge_of_fault tm hrst hf, edge_of_fault tm hrst (h.fault ▸ hf)]
      rfl
    | none =>
      cases hi : s.inFlight with
      | some f =>
        rw [edge_of_flight tm hrst hf hi, edge_of_flight tm hrst (h.fault ▸ hf) (h.inFlight ▸ hi)]
        exact flightEdge_agree h f
      | none =>
        rw [edge_of_ready tm hrst hf hi, edge_of_ready tm hrst (h.fault ▸ hf) (h.inFlight ▸ hi)]
        split
        · exact acceptEdge_agree h tm inp.word
        · exact h

/-- Settles O48: steps, edges, ports and the final observation of agreeing states agree. -/
theorem unwrittenRegistersNeverMatter : Obligations.UnwrittenRegistersNeverMatter :=
  fun _ _ h => ⟨step_agree h, edge_agree h, observe_agree h, finalObservation_agree h⟩

end Sys2Proof.Machine
end

section
/-! What the ports carry: a command word from its two fields, the round keys packed on `rk_bus`, and the registers
between commands. -/

namespace Sys2Proof.Machine

/-! ### Table words -/

/-- Bits 9:8 and bits 7:0 of a number, put together, are its low ten bits. -/
theorem ofNat_div_append_ofNat_mod (n : Nat) :
    BitVec.ofNat 2 (n / 256) ++ BitVec.ofNat 8 (n % 256) = BitVec.ofNat 10 n := by
  apply BitVec.eq_of_toNat_eq
  have hlow : n % 256 % 2 ^ 8 < 2 ^ 8 := Nat.mod_lt _ (by decide)
  rw [BitVec.toNat_append, BitVec.toNat_ofNat, BitVec.toNat_ofNat, BitVec.toNat_ofNat,
    ← Nat.shiftLeft_add_eq_or_of_lt hlow, Nat.shiftLeft_eq]
  omega

/-- The two ports carry a number exactly where it has ten bits (30_encoding.md R50, 10_state.md R32). -/
theorem portWord_eq (nbits w : Nat) :
    portWord nbits w = if w % 2 ^ nbits < 1024 then some (BitVec.ofNat 10 (w % 2 ^ nbits)) else none := by
  have hfits : w % 2 ^ nbits / 256 < 4 ∧ w % 2 ^ nbits % 256 < 256 ↔ w % 2 ^ nbits < 1024 := by
    generalize w % 2 ^ nbits = n
    omega
  simp only [portWord, RawCommand.word?, RawCommand.opFits, RawCommand.dataFits, Bool.and_eq_true, decide_eq_true_eq,
    hfits, ofNat_div_append_ofNat_mod]

/-- Settles O23: the word on the ports is decoded, and only the reserved opcode gives nothing. -/
theorem tableWordsReadThroughThePorts : Obligations.TableWordsReadThroughThePorts := by
  intro nbits w
  rw [decodeTableWord, portWord_eq]
  split_ifs with hfits
  · cases hd : decode (BitVec.ofNat 10 (w % 2 ^ nbits)) with
    | ok i => simp [hd, Except.toOption]
    | error e => cases e; simp [hd, Except.toOption]
  · rfl

/-! ### The packing of `rk_bus` -/

/-- The bus is the number whose base-64 digits, least significant first, are the round keys. -/
theorem rkBusOf_eq_ofDigits (rk : RoundKeys) :
    rkBusOf rk = BitVec.ofNat 96 (Nat.ofDigits 64 (rk.toList.map BitVec.toNat)) := by
  simp [rkBusOf, Nat.ofDigits_eq_foldr, List.foldr_map, add_comm]

theorem ofDigits_div_pow_mod {b : Nat} {l : List Nat} (hb : 0 < b) (hl : ∀ x ∈ l, x < b) {i : Nat}
    (hi : i < l.length) : Nat.ofDigits b l / b ^ i % b = l[i] := by
  rw [Nat.ofDigits_div_pow_eq_ofDigits_drop i hb l hl, List.drop_eq_getElem_cons hi, Nat.ofDigits_cons,
    Nat.add_mul_mod_self_left, Nat.mod_eq_of_lt (hl _ (List.getElem_mem hi))]

theorem roundKey_digits_lt (rk : RoundKeys) : ∀ x ∈ rk.toList.map BitVec.toNat, x < 64 := by
  intro x hx
  obtain ⟨k, -, rfl⟩ := List.mem_map.mp hx
  exact k.isLt

/-- Field `i` of the bus is its digit `i`: sixteen digits fit the 96 bits, so none is cut off. -/
theorem extractLsb'_rkBusOf (rk : RoundKeys) (i : Fin 16) : (rkBusOf rk).extractLsb' (6 * i.val) 6 = rk[i] := by
  have hfits : Nat.ofDigits 64 (rk.toList.map BitVec.toNat) < 2 ^ 96 := by
    simpa using Nat.ofDigits_lt_base_pow_length (by decide) (roundKey_digits_lt rk)
  have hdigit : Nat.ofDigits 64 (rk.toList.map BitVec.toNat) / 64 ^ i.val % 64 = rk[i].toNat := by
    rw [ofDigits_div_pow_mod (by decide) (roundKey_digits_lt rk) (by simp)]
    simp
  apply BitVec.eq_of_toNat_eq
  rw [rkBusOf_eq_ofDigits, BitVec.extractLsb'_toNat, BitVec.toNat_ofNat, Nat.mod_eq_of_lt hfits,
    Nat.shiftRight_eq_div_pow, pow_mul]
  exact hdigit

/-- Settles O42: by the digits of the bus in base 64, and the valid flag that guards the port. -/
theorem roundKeyBusPacking : Obligations.RoundKeyBusPacking := by
  intro rk
  refine ⟨extractLsb'_rkBusOf rk, extractLsb'_rkBusOf rk 0, extractLsb'_rkBusOf rk 15, fun s rst v h => ?_⟩
  cases hv : s.keyValid with
  | true => exact ⟨kv_of_keyValid hv, by simpa [observe, hv] using h.symm⟩
  | false => simp [observe, hv] at h

/-! ### The registers at the ports -/

theorem keyValid_of_no_flight {s : State} (h : s.inFlight = none) : s.keyValid = s.kv := by
  simp [State.keyValid, State.keyInFlight, h]

theorem doutValid_of_no_flight {s : State} (h : s.inFlight = none) : s.doutValid = s.dv := by
  simp [State.doutValid, State.blockInFlight, h]

/-- Settles O43: nothing in flight masks a valid port. -/
theorem portsShowTheRegisters : Obligations.PortsShowTheRegisters := by
  intro s rst hi
  refine ⟨by rw [observe, doutValid_of_no_flight hi], by rw [observe, keyValid_of_no_flight hi], fun v h => ?_⟩
  cases hv : s.doutValid with
  | true => simpa [observe, hv] using h.symm
  | false => simp [observe, hv] at h

/-- Settles O36: with both flags at 0 the two registers cannot be observed. -/
theorem resetStateValues : Obligations.ResetStateValues := by
  have hkey : State.reset.keyValid = false := keyValid_of_no_flight rfl
  have hdout : State.reset.doutValid = false := doutValid_of_no_flight rfl
  exact ⟨rfl, rfl, rfl, rfl, by simp [observe, hkey], by simp [observe, hdout], by simp [observe, hkey],
    by simp [observe, hdout]⟩

end Sys2Proof.Machine
end

section
/-! Bytes as halves, commands in their order, and reads: the block functions split a byte and join the halves swapped,
each step of a ready block takes the next command, and a read takes only itself off the host's list. -/

namespace Sys2Proof.Machine

/-! ### Halves of a byte -/

theorem extractLsb'_high_joinSwapped (h : U4 × U4) : (joinSwapped h).extractLsb' 4 4 = h.2 :=
  BitVec.extractLsb'_append_eq_left

theorem extractLsb'_low_joinSwapped (h : U4 × U4) : (joinSwapped h).extractLsb' 0 4 = h.1 :=
  BitVec.extractLsb'_append_eq_right

/-- Settles O13: both functions end in `joinSwapped`, whose nibbles are the final R and the final L. -/
theorem blockFunctionsSplitAndJoin : Obligations.BlockFunctionsSplitAndJoin :=
  fun _ _ _ =>
    ⟨⟨rfl, extractLsb'_high_joinSwapped _, extractLsb'_low_joinSwapped _⟩,
      rfl, extractLsb'_high_joinSwapped _, extractLsb'_low_joinSwapped _⟩

/-! ### Commands in their order -/

/-- A ready block takes the word next in the host's list off it and does what its command means. -/
theorem step_of_command {s : State} {w : CmdWord} {es : List HostEvent} {i : Instr} (hs : s.Ready)
    (hh : s.host = .command w :: es) (hd : decode w = .ok i) : step s = exec i (s.withHost es) := by
  obtain ⟨hf, hi⟩ := hs
  rw [step_of_event hh hi]
  exact takeCommand_of_ok hf hd

theorem step_of_key {s : State} {w : CmdWord} {es : List HostEvent} {k : U8} (hs : s.Ready)
    (hh : s.host = .command w :: es) (hd : decode w = .ok (.key k)) :
    step s = .next ((s.withHost es).loadKeys (generate k)) := by
  rw [step_of_command hs hh hd, exec_key]

theorem step_of_enc {s : State} {w : CmdWord} {es : List HostEvent} {x : U8} (hs : s.Ready) (hk : s.kv = true)
    (hh : s.host = .command w :: es) (hd : decode w = .ok (.enc x)) :
    step s = .next ((s.withHost es).storeResult (encryptBlock Config.sboxTable s.rk x)) := by
  rw [step_of_command hs hh hd, exec_enc]
  exact blockCommand_of_keys (s := s.withHost es) _ hk

theorem run_two_of_next {s t u : State} (hst : step s = .next t) (htu : step t = .next u) :
    Host.Core.run Sys2Proof.core 2 s = .next u := by
  rw [run_of_next 1 hst, run_of_next 0 htu]
  rfl

/-- Settles O29: two steps, the second from the state that the first leaves; neither command makes the block unready. -/
theorem commandsTakeEffectInOrder : Obligations.CommandsTakeEffectInOrder := by
  intro s w1 w2 es k x hs
  constructor
  · intro hh hkey henc
    exact run_two_of_next (step_of_key hs hh hkey) (step_of_enc hs rfl rfl henc)
  · intro hkv hh henc hkey
    exact run_two_of_next (step_of_enc hs hkv hh henc) (step_of_key hs rfl hkey)

/-! ### Reads -/

/-- The ports show the block, not what the host does next (log 6). -/
@[simp] theorem observe_withHost (rst : Bool) (p : OutPort) (s : State) (es : List HostEvent) :
    observe rst p (s.withHost es) = observe rst p s := rfl

theorem observe_cmdReady_next {rst : Bool} {s : State} {v : PortValue} (h : observe rst .cmdReady s = .next v) :
    v = .bit (s.cmdReady rst) := by
  simp only [observe] at h
  split at h
  · cases h
  · exact (Host.Outcome.next.inj h).symm

theorem observe_dout_next {rst : Bool} {s : State} {v : PortValue} (h : observe rst .dout s = .next v) :
    v = .byte s.dout := by
  simp only [observe] at h
  split at h
  · exact (Host.Outcome.next.inj h).symm
  · cases h

theorem observe_rkBus_next {rst : Bool} {s : State} {v : PortValue} (h : observe rst .rkBus s = .next v) :
    v = .bus (rkBusOf s.rk) := by
  simp only [observe] at h
  split at h
  · exact (Host.Outcome.next.inj h).symm
  · cases h

/-- A step that takes a read succeeds only where the observation does, and leaves the block as it was. -/
theorem step_of_read_next {s t : State} {p : OutPort} {es : List HostEvent} (hh : s.host = .read p :: es)
    (hi : s.inFlight = none) (h : step s = .next t) :
    t = s.withHost es ∧ ∃ v, observe false p s = .next v := by
  have hread : takeRead p (s.withHost es) = .next t := by rwa [step_of_event hh hi] at h
  refine ⟨takeRead_next hread, ?_⟩
  obtain ⟨v, hv, -⟩ | ⟨r, -, hr⟩ := takeRead_cases p (s.withHost es)
  · exact ⟨v, hv⟩
  · simp [hr] at hread

/-- Settles O44: a read takes itself off the list, which no port shows, and each port answers values of one shape. -/
theorem readsHaveNoSideEffect : Obligations.ReadsHaveNoSideEffect := by
  refine ⟨?unchanged, ?width⟩
  case unchanged =>
    intro s t p es hh hi h
    obtain ⟨rfl, v, hv⟩ := step_of_read_next hh hi h
    exact ⟨rfl, v, hv, (observe_withHost false p s es).trans hv⟩
  case width =>
    intro s rst p v h
    cases p with
    | cmdReady => exact ⟨_, observe_cmdReady_next h⟩
    | dout => exact ⟨_, observe_dout_next h⟩
    | doutValid => exact ⟨_, (Host.Outcome.next.inj h).symm⟩
    | keyValid => exact ⟨_, (Host.Outcome.next.inj h).symm⟩
    | rkBus => exact ⟨_, observe_rkBus_next h⟩

end Sys2Proof.Machine
end


section
/-! Command words: a word is its opcode before its operand, so decoding it and encoding a command undo each other; then
what a step and an edge do with a word that decodes and with the reserved one. -/

namespace Sys2Proof.Machine

/-! ### Words as opcode and operand -/

theorem opField_append_dataField (w : CmdWord) : opField w ++ dataField w = w :=
  BitVec.extractLsb'_append_extractLsb'

/-- The mask of the opcode map keeps the opcode and clears the operand (30_encoding.md R52). -/
theorem append_and_opMask (op : U2) (data : U8) : (op ++ data) &&& opMask = op ++ 0#8 := by
  have hmask : opMask = BitVec.allOnes 2 ++ 0#8 := rfl
  rw [hmask, BitVec.and_append, BitVec.and_allOnes, BitVec.and_zero]

/-- A word decodes by its masked value alone: as the opcode that the mask keeps, before the operand. -/
theorem decode_of_and_opMask {w : CmdWord} (op : U2) (h : w &&& opMask = op ++ 0#8) :
    decode w = decode (op ++ dataField w) := by
  rw [← opField_append_dataField w, append_and_opMask] at h
  rw [← (BitVec.append_left_inj _).mp h, opField_append_dataField]

/-- Each opcode is one row of the map, or the code that the map leaves over. -/
theorem opcode_cases (op : U2) : op = 0b00#2 ∨ op = 0b01#2 ∨ op = 0b10#2 ∨ op = 0b11#2 := by
  revert op
  decide

/-! ### Decode and encode -/

/-- The comparison with each `match` is a comparison of the opcode: the operand takes no part (30_encoding.md R52). -/
theorem decode_append (op : U2) (data : U8) :
    decode (op ++ data) =
      if op = 0b01#2 then .ok (.key data)
      else if op = 0b10#2 then .ok (.enc data)
      else if op = 0b11#2 then .ok (.dec data)
      else .error .reservedOp := by
  have hkey : keyMatch = 0b01#2 ++ 0#8 := rfl
  have henc : encMatch = 0b10#2 ++ 0#8 := rfl
  have hdec : decMatch = 0b11#2 ++ 0#8 := rfl
  have hrow (row : U2) : (op ++ 0#8 : CmdWord) = row ++ 0#8 ↔ op = row := BitVec.append_left_inj _
  have hdata : dataField (op ++ data) = data := (Laws.EncodeFields.fields op data).2
  simp only [decode, append_and_opMask, hkey, henc, hdec, hrow, hdata]

theorem decode_encode (i : Instr) : decode (encode i) = .ok i := by
  rw [encode, decode_append]
  cases i <;> rfl

theorem decode_reserved (data : U8) : decode (0b00#2 ++ data) = .error .reservedOp := by
  rw [decode_append]
  rfl

/-- Every word has the reserved opcode or is the word of a command of its operand (30_encoding.md R55). -/
theorem word_cases (w : CmdWord) :
    w = 0b00#2 ++ dataField w ∨
    ∃ i : Instr, w = encode i ∧ (i = .key (dataField w) ∨ i = .enc (dataField w) ∨ i = .dec (dataField w)) := by
  have hw : w = opField w ++ dataField w := (opField_append_dataField w).symm
  obtain hop | hop | hop | hop := opcode_cases (opField w) <;> rw [hop] at hw
  · exact .inl hw
  · exact .inr ⟨.key (dataField w), hw, .inl rfl⟩
  · exact .inr ⟨.enc (dataField w), hw, .inr (.inl rfl)⟩
  · exact .inr ⟨.dec (dataField w), hw, .inr (.inr rfl)⟩

theorem encode_of_decode {w : CmdWord} {i : Instr} (h : decode w = .ok i) : encode i = w := by
  obtain hw | ⟨j, rfl, -⟩ := word_cases w
  · rw [hw, decode_reserved] at h
    cases h
  · rw [decode_encode] at h
    obtain rfl : j = i := Except.ok.inj h
    rfl

theorem decode_eq_reserved_iff (w : CmdWord) : decode w = .error .reservedOp ↔ opField w = 0b00#2 := by
  constructor
  · intro h
    obtain hw | ⟨i, rfl, -⟩ := word_cases w
    · rw [hw]
      exact (Laws.EncodeFields.fields _ _).1
    · rw [decode_encode] at h
      cases h
  · intro h
    rw [← opField_append_dataField w, h]
    exact decode_reserved _

/-- Settles O20: the fields of `encode i` choose the row of `i`, and a word is determined by its two fields. -/
theorem decodeEncodeRoundTrip : Obligations.DecodeEncodeRoundTrip := by
  refine ⟨fun i => ⟨decode_encode i, Laws.EncodeFields.fields _ _⟩, fun _ _ => encode_of_decode, ?injective⟩
  intro i j h
  exact Except.ok.inj (by rw [← decode_encode i, h, decode_encode j])

/-- Settles O21: a word with another opcode than the reserved one is the word of a command of its operand. -/
theorem everyWordDecodesOrIsReserved : Obligations.EveryWordDecodesOrIsReserved := by
  refine fun w => ⟨decode_eq_reserved_iff w, fun hop => ?_⟩
  obtain hw | ⟨i, hw, hi⟩ := word_cases w
  · exact absurd ((decode_eq_reserved_iff w).mp (hw ▸ decode_reserved _)) hop
  · exact ⟨i, hw ▸ decode_encode i, by cases i <;> rfl, hi⟩

/-- Settles O22: each listed word is the encoding of its command, or the reserved opcode before its operand. -/
theorem listedWordsDecode : Obligations.ListedWordsDecode :=
  ⟨decode_encode (.key 0xAB), decode_encode (.key 0x00), decode_encode (.enc 0x00), decode_encode (.enc 0xFF),
    decode_encode (.dec 0x91), decode_encode (.dec 0x3C), decode_reserved 0x00, decode_reserved 0xFF⟩

/-! ### The bits of the opcode (30_encoding.md R54) -/

theorem getLsbD_encode (i : Instr) {n : Nat} (hn : ¬ n < 8) : (encode i).getLsbD n = i.opcode.getLsbD (n - 8) := by
  rw [encode, BitVec.getLsbD_append, if_neg hn]

/-- `op[1]` tells the block commands from KEY. -/
theorem readsKeys_eq_encode_bit (i : Instr) : readsKeys i = (encode i).getLsbD 9 := by
  rw [getLsbD_encode i (by decide)]
  cases i <;> simp [readsKeys, Instr.opcode]

/-- Among the block commands `op[0]` tells DEC from ENC, and so the order of the round keys. -/
theorem exec_block_of_encode_bit {i : Instr} {s : State} (hr : readsKeys i = true) (hk : s.kv = true) :
    exec i s = .next (s.storeResult
      (if (encode i).getLsbD 8 then decryptBlock Config.sboxTable s.rk i.data
        else encryptBlock Config.sboxTable s.rk i.data)) := by
  rw [getLsbD_encode i (by decide)]
  cases i with
  | key d => exact absurd hr (by simp [readsKeys])
  | enc d => simp [exec_enc, blockCommand_of_keys _ hk, Instr.opcode, Instr.data]
  | dec d => simp [exec_dec, blockCommand_of_keys _ hk, Instr.opcode, Instr.data]

/-- Settles O19: the masked word chooses the row, and the two bits of the opcode the kind and the direction. -/
theorem opcodeMapDecodesWords : Obligations.OpcodeMapDecodesWords := by
  refine ⟨?reserved, ?key, ?enc, ?dec, ?bits⟩
  case reserved => exact fun w h => (decode_of_and_opMask 0b00#2 h).trans (decode_reserved _)
  case key => exact fun w h => (decode_of_and_opMask 0b01#2 h).trans (decode_encode (.key _))
  case enc => exact fun w h => (decode_of_and_opMask 0b10#2 h).trans (decode_encode (.enc _))
  case dec => exact fun w h => (decode_of_and_opMask 0b11#2 h).trans (decode_encode (.dec _))
  case bits =>
    intro w i h
    obtain rfl := encode_of_decode h
    have hdata : (encode i).extractLsb' 0 8 = i.data := (Laws.EncodeFields.fields _ _).2
    rw [hdata]
    exact ⟨readsKeys_eq_encode_bit i, fun s => exec_block_of_encode_bit⟩

/-! ### The step and the edge on a word -/

theorem decodeTableWord_eq_some {nbits w : Nat} {i : Instr} (h : decodeTableWord nbits w = some i) :
    ∃ word, portWord nbits w = some word ∧ decode word = .ok i := by
  cases hp : portWord nbits w with
  | none => simp [decodeTableWord, hp] at h
  | some word =>
    cases hd : decode word with
    | ok j => exact ⟨word, rfl, by simpa [decodeTableWord, hp, hd] using h⟩
    | error e => cases e; simp [decodeTableWord, hp, hd] at h

theorem withFetchWord_of_portWord {nbits w : Nat} {word : CmdWord} (s : State) (h : portWord nbits w = some word) :
    s.withFetchWord nbits w = s.presentWord word := by
  simp only [State.withFetchWord, State.presentTableWord, h]

/-- Settles O25: `withFetchWord` makes the block ready and places the word that the ports carry. -/
theorem stepRunsDecodedCommand : Obligations.StepRunsDecodedCommand := by
  refine ⟨fun s w es i hs hh hd => step_of_command hs hh hd, fun s nbits w i h => ?_⟩
  obtain ⟨word, hp, hd⟩ := decodeTableWord_eq_some h
  rw [withFetchWord_of_portWord s hp]
  exact step_of_command (s := s.presentWord word) ⟨rfl, rfl⟩ rfl hd

theorem rst_and_cmdValid_of_accepts {inp : Inputs} {s : State} (h : accepts inp s = true) :
    inp.rst = false ∧ inp.cmdValid = true := by
  obtain ⟨hvalid, hready⟩ := Bool.and_eq_true_iff.mp h
  obtain ⟨hrst, -⟩ := Bool.and_eq_true_iff.mp hready
  exact ⟨by simpa using hrst, hvalid⟩

theorem edge_of_accepts {inp : Inputs} {s : State} (tm : Timing) (hs : s.Ready) (h : accepts inp s = true) :
    edge tm inp s = acceptEdge tm inp.word s := by
  obtain ⟨hf, hi⟩ := hs
  obtain ⟨hrst, hvalid⟩ := rst_and_cmdValid_of_accepts h
  rw [edge_of_ready tm hrst hf hi, if_pos hvalid]

theorem acceptEdge_of_reserved {w : CmdWord} (tm : Timing) (s : State) (hd : decode w = .error .reservedOp) :
    acceptEdge tm w s = .fault .reservedOp := by
  simp [acceptEdge, hd]

/-- Settles O30: decode refuses the word before the command's meaning looks at `KV`. -/
theorem reservedWordFaults : Obligations.ReservedWordFaults := by
  intro s data hs
  constructor
  · intro es hh
    have hstep : step s = .fault .reservedOp := by
      rw [step_of_event hh hs.2]
      exact takeCommand_of_reserved hs.1 (decode_reserved data)
    exact ⟨hstep, by rw [hstep]; exact State.recordFault_of_none _ hs.1⟩
  · intro tm inp hacc hword
    rw [edge_of_accepts tm hs hacc, hword]
    exact acceptEdge_of_reserved tm s (decode_reserved data)

end Sys2Proof.Machine
end

section
/-! Assembly lines: the digits of the operand read back as they were written, a mnemonic in either case names its
command, and whatever follows the operand from a `;` on is dropped. -/

namespace Sys2Proof.Machine

/-! ### Digits and mnemonics -/

theorem hexNibble_hexDigit (v : U4) : hexNibble (hexDigit v) = some v := by
  revert v
  decide

theorem hexDigit_ne_semicolon (v : U4) : hexDigit v ≠ ';' := by
  revert v
  decide

theorem map_toUpper_mnemonicOf (i : Instr) : (mnemonicOf i).map Char.toUpper = mnemonicOf i := by
  cases i <;> rfl

/-- A mnemonic names a command exactly where it is the command's own up to case (30_encoding.md R56). -/
theorem instrOfMnemonic_eq_some {m : List Char} {d : U8} {i : Instr} :
    instrOfMnemonic m d = some i ↔ m.map Char.toUpper = mnemonicOf i ∧ i.data = d := by
  constructor
  · intro h
    simp only [instrOfMnemonic] at h
    split_ifs at h with hkey henc hdec <;> obtain rfl := Option.some.inj h
    · exact ⟨hkey, rfl⟩
    · exact ⟨henc, rfl⟩
    · exact ⟨hdec, rfl⟩
  · rintro ⟨hm, rfl⟩
    cases i <;> simp [instrOfMnemonic, hm, mnemonicOf, Instr.data]

/-! ### The line of a command -/

/-- What R56 writes after the mnemonic: a space and the operand in two hex digits. -/
def operandText (d : U8) : List Char :=
  [' ', '0', 'x', hexDigit (d.extractLsb' 4 4), hexDigit (d.extractLsb' 0 4)]

theorem assemblyLine_eq (i : Instr) : assemblyLine i = mnemonicOf i ++ operandText i.data := rfl

theorem semicolon_notMem_operandText (d : U8) : ';' ∉ operandText d := by
  simp [operandText, (hexDigit_ne_semicolon _).symm]

/-- The case of a letter does not make it a `;`. -/
theorem semicolon_notMem_mnemonic {m : List Char} {i : Instr} (hm : m.map Char.toUpper = mnemonicOf i) : ';' ∉ m := by
  intro h
  have hupper : ';' ∈ mnemonicOf i := hm ▸ List.mem_map_of_mem (f := Char.toUpper) h
  revert hupper
  cases i <;> simp [mnemonicOf]

/-- A line keeps what stands before its first `;`. -/
theorem stripComment_append {text : List Char} (h : ';' ∉ text) (tail : List Char) :
    stripComment (text ++ tail) = text ++ stripComment tail :=
  List.takeWhile_append_of_pos fun _ hc => decide_eq_true fun he => h (he ▸ hc)

/-- A mnemonic in any case, its operand and at most a comment make the command's word. -/
theorem assembleLine_of_mnemonic {m tail : List Char} {i : Instr} (hm : m.map Char.toUpper = mnemonicOf i)
    (htail : stripComment tail = []) : assembleLine (m ++ operandText i.data ++ tail) = some (encode i) := by
  have hstrip : stripComment (m ++ operandText i.data ++ tail) = m ++ operandText i.data := by
    rw [stripComment_append, htail, List.append_nil]
    simp [semicolon_notMem_mnemonic hm, semicolon_notMem_operandText]
  have hlength : m.length = 3 := by
    rw [← List.length_map (f := Char.toUpper), hm]
    cases i <;> rfl
  have hoperand : i.data.extractLsb' 4 4 ++ i.data.extractLsb' 0 4 = i.data :=
    BitVec.extractLsb'_append_extractLsb' (w := 4)
  have hinstr : instrOfMnemonic m i.data = some i := instrOfMnemonic_eq_some.mpr ⟨hm, rfl⟩
  obtain ⟨m1, m2, m3, rfl⟩ := List.length_eq_three.mp hlength
  simp only [assembleLine, hstrip]
  simp [operandText, hexNibble_hexDigit, hoperand, hinstr]

/-! ### What a line that assembles is -/

/-- A line that assembles begins with the three letters that name its command. -/
theorem assembleLine_eq_some {line : List Char} {w : CmdWord} (h : assembleLine line = some w) :
    ∃ m1 m2 m3 tail i, stripComment line = m1 :: m2 :: m3 :: tail ∧
      [m1, m2, m3].map Char.toUpper = mnemonicOf i ∧ w = encode i := by
  unfold assembleLine at h
  split at h
  next m1 m2 m3 _ _ _ hline =>
    split at h
    next high low _ _ =>
      split at h
      · obtain ⟨i, hi, rfl⟩ := Option.map_eq_some_iff.mp h
        exact ⟨m1, m2, m3, _, i, hline, (instrOfMnemonic_eq_some.mp hi).1, rfl⟩
      · cases h
    next => cases h
  next => cases h

theorem encode_toNat (i : Instr) : (encode i).toNat = i.opcode.toNat * 256 + i.data.toNat := by
  rw [encode, BitVec.toNat_append, ← Nat.shiftLeft_add_eq_or_of_lt i.data.isLt, Nat.shiftLeft_eq]

theorem one_le_opcode (i : Instr) : 1 ≤ i.opcode.toNat := by
  cases i <;> simp [Instr.opcode]

/-- The mnemonic that names the command is the line's own first three letters: no comment begins among them. -/
theorem assembleLine_cons_eq_some {a b c : Char} {rest : List Char} {w : CmdWord}
    (h : assembleLine (a :: b :: c :: rest) = some w) : ∃ i, [a, b, c].map Char.toUpper = mnemonicOf i := by
  obtain ⟨m1, m2, m3, tail, i, hline, hm, -⟩ := assembleLine_eq_some h
  have hprefix : m1 :: m2 :: m3 :: tail <+: a :: b :: c :: rest := hline ▸ List.takeWhile_prefix _
  simp only [List.cons_prefix_cons] at hprefix
  obtain ⟨rfl, rfl, rfl, -⟩ := hprefix
  exact ⟨i, hm⟩

/-- Settles O24: the mnemonic in either case and the two digits give back the command, and nothing else gives one. -/
theorem assemblyLinesRoundTrip : Obligations.AssemblyLinesRoundTrip := by
  refine ⟨?plain, ?comment, ?lower, ?value, ?refused⟩
  case plain =>
    intro i
    rw [← List.append_nil (assemblyLine i)]
    exact assembleLine_of_mnemonic (map_toUpper_mnemonicOf i) rfl
  case comment =>
    exact fun i comment => assembleLine_of_mnemonic (map_toUpper_mnemonicOf i) rfl
  case lower =>
    intro i
    have hlower : ((mnemonicOf i).map Char.toLower).map Char.toUpper = mnemonicOf i := by cases i <;> rfl
    have hline : ((assemblyLine i).take 3 |>.map Char.toLower |>.append ((assemblyLine i).drop 3)) =
        (mnemonicOf i).map Char.toLower ++ operandText i.data ++ [] := by cases i <;> rfl
    rw [hline]
    exact assembleLine_of_mnemonic hlower rfl
  case value =>
    intro line w h
    obtain ⟨-, -, -, -, i, -, -, rfl⟩ := assembleLine_eq_some h
    exact ⟨i, rfl, encode_toNat i, one_le_opcode i⟩
  case refused =>
    rintro a b c rest ⟨hkey, henc, hdec⟩
    rw [Option.eq_none_iff_forall_ne_some]
    intro w h
    obtain ⟨i, hi⟩ := assembleLine_cons_eq_some h
    cases i with
    | key _ => exact hkey hi
    | enc _ => exact henc hi
    | dec _ => exact hdec hi

end Sys2Proof.Machine
end

section
/-! The two rotators: each is the one-bit left rotation of its width, so n applications rotate by n places and as many
as there are bits undo each other. -/

namespace Sys2Proof.Machine

/-! ### One-bit rotations of any width -/

/-- A rotator's wiring, all bits moved up and the top one wrapped into bit 0, is the left rotation by one place. -/
theorem extractLsb'_append_top_eq_rotateLeft {w : Nat} (hw : 0 < w) (v : BitVec (w + 1)) :
    v.extractLsb' 0 w ++ v.extractLsb' w 1 = v.rotateLeft 1 := by
  have hone : 1 % (w + 1) = 1 := Nat.mod_eq_of_lt (by omega)
  apply BitVec.eq_of_getLsbD_eq
  intro i hi
  rw [BitVec.getLsbD_append, BitVec.getLsbD_rotateLeft, hone]
  cases i with
  | zero => simp
  | succ i => simp [Nat.lt_of_succ_lt_succ hi, hi]

theorem rotateLeft_rotateLeft {w : Nat} (v : BitVec w) (m n : Nat) :
    (v.rotateLeft m).rotateLeft n = v.rotateLeft (m + n) := by
  apply BitVec.eq_of_getMsbD_eq
  intro i hi
  have hlt : (n + i) % w < w := Nat.mod_lt _ (by omega)
  simp [BitVec.getMsbD_rotateLeft, hi, hlt, add_assoc]

theorem rotateLeft_of_mod_eq_zero {w n : Nat} (v : BitVec w) (h : n % w = 0) : v.rotateLeft n = v := by
  rw [← BitVec.rotateLeft_mod_eq_rotateLeft, h]
  ext i hi
  simp [BitVec.getElem_rotateLeft]

theorem iterate_rotateLeft_one {w : Nat} (n : Nat) (v : BitVec w) : (·.rotateLeft 1)^[n] v = v.rotateLeft n := by
  induction n with
  | zero => exact (rotateLeft_of_mod_eq_zero v (Nat.zero_mod w)).symm
  | succ n ih => rw [Function.iterate_succ_apply', ih, rotateLeft_rotateLeft]

/-- Bit `i` after a left rotation by `n` places comes from `n` places below, around the end. -/
theorem getLsbD_rotateLeft_eq_mod {w n i : Nat} (v : BitVec w) (hi : i < w) :
    (v.rotateLeft n).getLsbD i = v.getLsbD ((i + w - n % w) % w) := by
  have hn : n % w < w := Nat.mod_lt _ (by omega)
  rw [BitVec.getLsbD_rotateLeft]
  by_cases hwrap : i < n % w
  · have hidx : (i + w - n % w) % w = w - n % w + i := by
      rw [Nat.mod_eq_of_lt (by omega)]
      omega
    simp [hwrap, hidx]
  · have hidx : (i + w - n % w) % w = i - n % w := by
      rw [show i + w - n % w = i - n % w + w by omega, Nat.add_mod_right, Nat.mod_eq_of_lt (by omega)]
    simp [hwrap, hidx, hi]

/-- A map of which some positive number of applications is the identity has the remaining applications as inverse. -/
theorem bijective_of_iterate_succ_eq {α : Type} {f : α → α} {n : Nat} (h : ∀ x, f^[n + 1] x = x) :
    Function.Bijective f :=
  Function.bijective_iff_has_inverse.mpr
    ⟨f^[n], fun x => (Function.iterate_succ_apply f n x).symm.trans (h x),
      fun x => (Function.iterate_succ_apply' f n x).symm.trans (h x)⟩

/-! ### rotl4 (40_primitives.md R60, R61) -/

theorem rotl4_eq_rotateLeft : rotl4 = (·.rotateLeft 1) :=
  funext (extractLsb'_append_top_eq_rotateLeft (by decide))

theorem iterate_rotl4 (n : Nat) (v : U4) : rotl4^[n] v = v.rotateLeft n := by
  rw [rotl4_eq_rotateLeft, iterate_rotateLeft_one]

theorem iterate_rotl4_of_mod_eq_zero {n : Nat} (v : U4) (h : n % 4 = 0) : rotl4^[n] v = v := by
  rw [iterate_rotl4, rotateLeft_of_mod_eq_zero v h]

theorem iterate_rotl4_mod (n : Nat) (v : U4) : rotl4^[n] v = rotl4^[n % 4] v := by
  rw [iterate_rotl4, iterate_rotl4, BitVec.rotateLeft_mod_eq_rotateLeft]

theorem rotl4_bijective : Function.Bijective rotl4 :=
  bijective_of_iterate_succ_eq (n := 3) fun v => iterate_rotl4_of_mod_eq_zero v rfl

/-- Settles O2: n applications of `rotl4` are the left rotation by n places, which knows n only modulo the width. -/
theorem rotateNibbleCycle : Obligations.RotateNibbleCycle := by
  refine ⟨fun v => iterate_rotl4_of_mod_eq_zero v rfl, iterate_rotl4_mod, rotl4_bijective,
    fun n v => iterate_rotl4_of_mod_eq_zero v, fun n i v hi => ?_⟩
  rw [iterate_rotl4, getLsbD_rotateLeft_eq_mod v hi]

/-- What a wiring puts last is bit 0 of the result. -/
theorem getLsbD_zero_append_bit {w n : Nat} (u : BitVec w) (v : BitVec n) (i : Nat) :
    (u ++ v.extractLsb' i 1).getLsbD 0 = v.getLsbD i := by
  rw [BitVec.getLsbD_append, if_pos Nat.one_pos, BitVec.getLsbD_extractLsb', decide_eq_true Nat.one_pos, Bool.true_and,
    Nat.add_zero]

/-- Settles O1: the two fields of the result are the two parts it is put together from. -/
theorem rotateNibbleWiring : Obligations.RotateNibbleWiring :=
  ⟨fun v => ⟨BitVec.extractLsb'_append_eq_left, getLsbD_zero_append_bit _ v 3⟩, rfl, rfl, rfl, rfl, rfl, rfl⟩

/-! ### rotl8 and PC1 (40_primitives.md R62, R63) -/

theorem rotl8_eq_rotateLeft : rotl8 = (·.rotateLeft 1) :=
  funext (extractLsb'_append_top_eq_rotateLeft (by decide))

theorem iterate_rotl8_eight (v : U8) : rotl8^[8] v = v := by
  rw [rotl8_eq_rotateLeft, iterate_rotateLeft_one, rotateLeft_of_mod_eq_zero v rfl]

theorem pc1_bijective : Function.Bijective pc1 := bijective_of_iterate_succ_eq (n := 7) iterate_rotl8_eight

/-- Settles O3: the wiring as for the nibble, and the cycle of eight makes PC1 a bijection. -/
theorem permutedChoiceOneRotatesByte : Obligations.PermutedChoiceOneRotatesByte :=
  ⟨fun v => ⟨BitVec.extractLsb'_append_eq_left, getLsbD_zero_append_bit _ v 7⟩, rfl, rfl, rfl, rfl, rfl,
    fun _ => rfl, iterate_rotl8_eight, pc1_bijective⟩

end Sys2Proof.Machine
end

section
/-! The S-box address, the expander and PC2: a six-bit value is its outer bits around its middle four, and a value made
by a position list holds, bit for bit, what the list names. -/

namespace Sys2Proof.Machine

/-! ### The S-box address (40_primitives.md R66, R67) -/

/-- The input that names a cell: `{row[1], col[3:0], row[0]}` (40_primitives.md R66). -/
def sboxInput (row : U2) (col : U4) : U6 := row.extractLsb' 1 1 ++ col ++ row.extractLsb' 0 1

theorem extractLsb'_top_outer (hi lo : BitVec 1) (mid : U4) : (hi ++ mid ++ lo).extractLsb' 5 1 = hi := by
  rw [BitVec.extractLsb'_append_eq_of_le (by decide), BitVec.extractLsb'_append_eq_left]

theorem extractLsb'_middle_four (hi lo : BitVec 1) (mid : U4) : (hi ++ mid ++ lo).extractLsb' 1 4 = mid := by
  rw [BitVec.extractLsb'_append_eq_of_le (by decide), BitVec.extractLsb'_append_eq_right]

theorem outer_append_middle (v : U6) : v.extractLsb' 5 1 ++ v.extractLsb' 1 4 ++ v.extractLsb' 0 1 = v := by
  rw [BitVec.extractLsb'_append_extractLsb'_eq_extractLsb' (start₁ := 1) (len₁ := 4) rfl,
    BitVec.extractLsb'_append_extractLsb'_eq_extractLsb' (start₁ := 0) (len₁ := 1) rfl, BitVec.extractLsb'_eq_self]

@[simp] theorem sboxRow_sboxInput (row : U2) (col : U4) : sboxRow (sboxInput row col) = row := by
  rw [sboxRow, sboxInput, extractLsb'_top_outer, BitVec.extractLsb'_append_eq_right]
  exact BitVec.extractLsb'_append_extractLsb'

@[simp] theorem sboxCol_sboxInput (row : U2) (col : U4) : sboxCol (sboxInput row col) = col :=
  extractLsb'_middle_four _ _ col

@[simp] theorem sboxInput_sboxRow_sboxCol (v : U6) : sboxInput (sboxRow v) (sboxCol v) = v := by
  have hhigh : (sboxRow v).extractLsb' 1 1 = v.extractLsb' 5 1 := BitVec.extractLsb'_append_eq_left
  have hlow : (sboxRow v).extractLsb' 0 1 = v.extractLsb' 0 1 := BitVec.extractLsb'_append_eq_right
  rw [sboxInput, hhigh, hlow]
  exact outer_append_middle v

theorem sbox_sboxInput (T : SboxTable) (row : U2) (col : U4) : sbox T (sboxInput row col) = T row col := by
  rw [sbox, sboxRow_sboxInput, sboxCol_sboxInput]

theorem existsUnique_sboxInput (row : U2) (col : U4) : ∃! v : U6, sboxRow v = row ∧ sboxCol v = col := by
  refine ⟨sboxInput row col, ⟨sboxRow_sboxInput row col, sboxCol_sboxInput row col⟩, ?unique⟩
  rintro v ⟨rfl, rfl⟩
  exact (sboxInput_sboxRow_sboxCol v).symm

/-- Settles O5: `sboxInput` and the address `(sboxRow, sboxCol)` undo each other, so every cell has its own input. -/
theorem sboxReadsTheAddressedCell : Obligations.SboxReadsTheAddressedCell := by
  refine ⟨fun v => ⟨?rowHigh, getLsbD_zero_append_bit _ v 0, rfl⟩, existsUnique_sboxInput, sboxInput_sboxRow_sboxCol,
    fun T => ⟨fun _ => rfl, sbox_sboxInput T 0 0, sbox_sboxInput T 3 15, sbox_sboxInput T 2 0, sbox_sboxInput T 1 0,
      sbox_sboxInput T 0 15, sbox_sboxInput T 3 6⟩⟩
  case rowHigh => rw [sboxRow, BitVec.getLsbD_append]; simp

/-! ### Values made by a position list -/

/-- A fold over bits, most significant first, has the last bit of the list as its bit 0. -/
theorem testBit_foldl_bits (bits : List Bool) (i : Nat) :
    (bits.foldl (fun (acc : Nat) b => 2 * acc + b.toNat) 0).testBit i = bits.reverse.getD i false := by
  induction bits using List.reverseRecOn generalizing i with
  | nil => simp
  | append_singleton bits b ih =>
    rw [List.foldl_concat, ← Nat.bit_val, List.reverse_concat]
    cases i with
    | zero => rw [Nat.testBit_bit_zero, List.getD_cons_zero]
    | succ i => rw [Nat.testBit_bit_succ, ih, List.getD_cons_succ]

/-- Entry `i` of a position list of `n` entries decides bit `n - 1 - i`. -/
theorem getLsbD_ofBitsMsb_map {n : Nat} (f : Nat → Bool) {positions : List Nat} (hn : positions.length = n)
    (i : Fin n) : (ofBitsMsb n (positions.map f)).getLsbD (n - 1 - i.val) = f positions[i.val]! := by
  subst hn
  have hlt : positions.length - 1 - i.val < positions.length := by omega
  have hidx : positions.length - 1 - (positions.length - 1 - i.val) = i.val := by omega
  rw [ofBitsMsb, BitVec.getLsbD_ofNat, testBit_foldl_bits]
  simp [hlt, hidx]

/-! ### The expander (40_primitives.md R64, R65) -/

theorem getLsbD_expand (v : U4) (i : Fin 6) : (expand v).getLsbD (5 - i.val) = v.getLsbD (3 - expPos[i.val]!) :=
  getLsbD_ofBitsMsb_map (fun p => v.getLsbD (3 - p)) (positions := expPos) rfl i

/-- The expander keeps the nibble in the middle, with bit 0 above it and bit 2 below it. -/
theorem expand_eq_append (v : U4) : expand v = v.extractLsb' 0 1 ++ v ++ v.extractLsb' 2 1 := by
  revert v
  decide

theorem sboxCol_expand (v : U4) : sboxCol (expand v) = v := by
  rw [expand_eq_append]
  exact extractLsb'_middle_four _ _ v

theorem expand_injective : Function.Injective expand := Function.LeftInverse.injective sboxCol_expand

/-- The bits that the expander writes twice are all that a value of its image is held to. -/
theorem expand_sboxCol_iff (w : U6) :
    expand (sboxCol w) = w ↔ w.getLsbD 5 = w.getLsbD 1 ∧ w.getLsbD 0 = w.getLsbD 3 := by
  revert w
  decide

theorem exists_expand_eq_iff (w : U6) :
    (∃ v : U4, expand v = w) ↔ w.getLsbD 5 = w.getLsbD 1 ∧ w.getLsbD 0 = w.getLsbD 3 := by
  rw [← expand_sboxCol_iff]
  constructor
  · rintro ⟨v, rfl⟩
    rw [sboxCol_expand]
  · exact fun h => ⟨_, h⟩

/-- Settles O4: the list decides each bit, and the middle four bits of a value give back the nibble it came from. -/
theorem expanderFollowsPositionList : Obligations.ExpanderFollowsPositionList := by
  have hclosed : ∀ i : Fin 6, 3 - expPos[i.val]! = [0, 3, 2, 1, 0, 2][i.val]! := by decide
  exact ⟨rfl, getLsbD_expand, fun v i => hclosed i ▸ getLsbD_expand v i, expand_injective, exists_expand_eq_iff, rfl⟩

/-! ### PC2 (40_primitives.md R69, R70) -/

theorem getLsbD_pc2 (v : U6) (i : Fin 6) : (pc2 v).getLsbD (5 - i.val) = v.getLsbD (pc2Pos[i.val]! - 1) :=
  getLsbD_ofBitsMsb_map (fun p => v.getLsbD (p - 1)) (positions := pc2Pos) rfl i

theorem getLsbD_pc2_eq_mirror (v : U6) (i : Fin 6) : (pc2 v).getLsbD (5 - i.val) = v.getLsbD i.val := by
  have hpos : ∀ i : Fin 6, pc2Pos[i.val]! - 1 = i.val := by decide
  rw [getLsbD_pc2, hpos]

theorem pc2_eq_reverse (v : U6) : pc2 v = v.reverse := by
  apply BitVec.eq_of_getMsbD_eq
  intro i hi
  rw [BitVec.getMsbD_reverse, BitVec.getMsbD, decide_eq_true hi, Bool.true_and]
  exact getLsbD_pc2_eq_mirror v ⟨i, hi⟩

theorem pc2_pc2 (v : U6) : pc2 (pc2 v) = v := by
  rw [pc2_eq_reverse, pc2_eq_reverse, BitVec.reverse_reverse_eq]

/-! ### Halves that no rotation changes -/

theorem rotateHalves_of_fixed {h : U4 × U4} (hc : rotl4 h.1 = h.1) (hd : rotl4 h.2 = h.2) (n : Nat) :
    rotateHalves n h = h := by
  induction n with
  | zero => rfl
  | succ n ih => rw [rotateHalves, hc, hd, ih]

theorem roundKeysFrom_of_fixed {h : U4 × U4} (hc : rotl4 h.1 = h.1) (hd : rotl4 h.2 = h.2) (ns : List Nat) :
    roundKeysFrom ns h = List.replicate ns.length (roundKeyOf h) := by
  induction ns with
  | nil => rfl
  | cons n ns ih => rw [roundKeysFrom, rotateHalves_of_fixed hc hd, ih, List.length_cons, List.replicate_succ]

/-- A master key whose permuted halves are constant gives one round key sixteen times. -/
theorem getElem_generate_of_fixed {key : U8} {h : U4 × U4} (hk : splitByte (pc1 key) = h) (hc : rotl4 h.1 = h.1)
    (hd : rotl4 h.2 = h.2) (i : Fin 16) : (generate key)[i] = roundKeyOf h := by
  simp [generate, hk, roundKeysFrom_of_fixed hc hd]

/-- Settles O6: PC2 is the reversal of its six bits, and the halves of key 0x00 stay 0 through every rotation. -/
theorem permuterReversesBits : Obligations.PermuterReversesBits :=
  ⟨rfl, getLsbD_pc2, getLsbD_pc2_eq_mirror, pc2_pc2, rfl, rfl, rfl, rfl, rfl, rfl, rfl,
    getElem_generate_of_fixed (h := (0, 0)) rfl rfl rfl, rfl⟩

end Sys2Proof.Machine
end

section
/-! The key schedule in closed form: the rotations of the loop accumulate, so round key i is PC2 of the two halves
rotated `CUM[i]` times. -/

namespace Sys2Proof.Machine

open Function

/-! ### The closed form (41_key_schedule.md R81, R82) -/

/-- `C_0` and `D_0`, the halves of the permuted key (41_key_schedule.md R81). -/
def seedHalves (key : U8) : U4 × U4 := splitByte (pc1 key)

/-- One rotation of step 3, of both halves (41_key_schedule.md R81). -/
abbrev rotateBoth : U4 × U4 → U4 × U4 := Prod.map rotl4 rotl4

/-- `CUM[i]`: the rotations made up to round key i, modulo the width of a half (41_key_schedule.md R82). -/
def cumShift (i : Nat) : Nat := (shifts.take (i + 1)).sum % 4

theorem rotateHalves_eq_iterate (n : Nat) (h : U4 × U4) : rotateHalves n h = rotateBoth^[n] h := by
  induction n generalizing h with
  | zero => rfl
  | succ n ih => exact ih (rotateBoth h)

theorem iterate_rotateBoth (n : Nat) (h : U4 × U4) : rotateBoth^[n] h = (rotl4^[n] h.1, rotl4^[n] h.2) := by
  rw [rotateBoth, Prod.map_iterate, Prod.map_apply']

theorem iterate_rotateBoth_mod (n : Nat) (h : U4 × U4) : rotateBoth^[n] h = rotateBoth^[n % 4] h := by
  rw [iterate_rotateBoth, iterate_rotateBoth, iterate_rotl4_mod n h.1, iterate_rotl4_mod n h.2]

/-- The rotations accumulate: entry `i` comes after as many as the first `i + 1` entries of the table add up to. -/
theorem getElem_roundKeysFrom (ns : List Nat) (h : U4 × U4) (i : Nat) (hi : i < (roundKeysFrom ns h).length) :
    (roundKeysFrom ns h)[i] = roundKeyOf (rotateBoth^[(ns.take (i + 1)).sum] h) := by
  induction ns generalizing h i with
  | nil => simp [roundKeysFrom] at hi
  | cons n ns ih =>
    cases i with
    | zero => simp [roundKeysFrom, rotateHalves_eq_iterate]
    | succ i =>
      rw [List.take_succ_cons, List.sum_cons, Nat.add_comm n, iterate_add_apply, ← rotateHalves_eq_iterate n]
      exact ih _ i _

theorem getElem_generate (key : U8) (i : Fin 16) :
    (generate key)[i] = roundKeyOf (rotateBoth^[cumShift i] (seedHalves key)) := by
  rw [cumShift, ← iterate_rotateBoth_mod]
  exact getElem_roundKeysFrom shifts (seedHalves key) i _

theorem toList_generate (key : U8) :
    (generate key).toList =
      ((List.range 16).map cumShift).map fun n => roundKeyOf (rotateBoth^[n] (seedHalves key)) := by
  apply List.ext_getElem (by simp)
  intro i hi _
  simpa using getElem_generate key ⟨i, by simpa using hi⟩

/-- PC2 writes the low bits of D before those of C, each half's lowest bit first (41_key_schedule.md R82). -/
theorem roundKeyOf_eq_ofBitsMsb (h : U4 × U4) :
    roundKeyOf h = ofBitsMsb 6 [h.2.getLsbD 0, h.2.getLsbD 1, h.2.getLsbD 2, h.1.getLsbD 0, h.1.getLsbD 1,
      h.1.getLsbD 2] := by
  simp only [roundKeyOf, pc2, pc2Pos, List.map, BitVec.getLsbD_append, BitVec.getLsbD_extractLsb']
  rfl

/-- Settles O7: the entry's running sum counts its rotations, and four rotations of a half are none. -/
theorem keyScheduleClosedForm : Obligations.KeyScheduleClosedForm := by
  refine ⟨rfl, rfl, by decide, fun key i => ?closed, fun h => ?back⟩
  case closed =>
    have hcum : ∀ i : Fin 16, [1, 2, 0, 2, 0, 2, 0, 2, 3, 1, 3, 1, 3, 1, 3, 0][i.val]! = cumShift i := by decide
    have hkey := getElem_generate key i
    rw [iterate_rotateBoth, ← hcum] at hkey
    exact ⟨hkey, hkey.trans (roundKeyOf_eq_ofBitsMsb _)⟩
  case back => rw [rotateHalves_eq_iterate, iterate_rotateBoth_mod, iterate_zero_apply]

end Sys2Proof.Machine
end

section
/-! Which round keys of a schedule are equal: a rotation keeps the parity of a half, so two round keys are equal exactly
where the rotated halves are, and their number is the period of the pair of halves under rotation. -/

namespace Sys2Proof.Machine

open Function Finset

/-! ### Which halves give equal round keys -/

/-- The parity of the four bits of a half, which no rotation changes. -/
def nibbleParity (c : U4) : Bool := c.getLsbD 0 ^^ c.getLsbD 1 ^^ c.getLsbD 2 ^^ c.getLsbD 3

theorem nibbleParity_iterate_rotl4 (n : Nat) (c : U4) : nibbleParity (rotl4^[n] c) = nibbleParity c := by
  have hrot : ∀ c : U4, nibbleParity (rotl4 c) = nibbleParity c := by decide
  induction n with
  | zero => rfl
  | succ n ih => rw [iterate_succ_apply', hrot, ih]

/-- The bit that step 4 drops is the parity of the half and of the three bits it keeps. -/
theorem eq_of_low_of_nibbleParity {c d : U4} (hlow : c.extractLsb' 0 3 = d.extractLsb' 0 3)
    (hparity : nibbleParity c = nibbleParity d) : c = d := by
  revert c d
  decide

theorem iterate_rotl4_eq_of_low {m n : Nat} {c : U4}
    (hlow : (rotl4^[m] c).extractLsb' 0 3 = (rotl4^[n] c).extractLsb' 0 3) : rotl4^[m] c = rotl4^[n] c :=
  eq_of_low_of_nibbleParity hlow (by rw [nibbleParity_iterate_rotl4, nibbleParity_iterate_rotl4])

theorem append_eq_append_iff {m n : Nat} {a b : BitVec m} {c d : BitVec n} : a ++ c = b ++ d ↔ a = b ∧ c = d := by
  constructor
  · intro h
    have hleft := congrArg (BitVec.extractLsb' n m) h
    have hright := congrArg (BitVec.extractLsb' 0 n) h
    rw [BitVec.extractLsb'_append_eq_left, BitVec.extractLsb'_append_eq_left] at hleft
    rw [BitVec.extractLsb'_append_eq_right, BitVec.extractLsb'_append_eq_right] at hright
    exact ⟨hleft, hright⟩
  · rintro ⟨rfl, rfl⟩
    rfl

/-- A round key holds the three low bits of either half, and nothing else of them. -/
theorem roundKeyOf_eq_iff (g h : U4 × U4) :
    roundKeyOf g = roundKeyOf h ↔
      g.1.extractLsb' 0 3 = h.1.extractLsb' 0 3 ∧ g.2.extractLsb' 0 3 = h.2.extractLsb' 0 3 := by
  have hpc2 : Injective pc2 := LeftInverse.injective pc2_pc2
  rw [roundKeyOf, roundKeyOf, hpc2.eq_iff, append_eq_append_iff]

/-- Two rotations of one pair of halves give the same round key only where they are the same. -/
theorem iterate_rotateBoth_eq_of_roundKeyOf {m n : Nat} {h : U4 × U4}
    (heq : roundKeyOf (rotateBoth^[m] h) = roundKeyOf (rotateBoth^[n] h)) : rotateBoth^[m] h = rotateBoth^[n] h := by
  rw [iterate_rotateBoth, iterate_rotateBoth] at heq ⊢
  obtain ⟨hc, hd⟩ := (roundKeyOf_eq_iff _ _).mp heq
  exact Prod.ext (iterate_rotl4_eq_of_low hc) (iterate_rotl4_eq_of_low hd)

theorem seedHalves_bijective : Bijective seedHalves := by
  have hsplit : Bijective splitByte := bijective_iff_has_inverse.mpr
    ⟨fun h => h.1 ++ h.2, fun _ => BitVec.extractLsb'_append_extractLsb',
      fun _ => Prod.ext BitVec.extractLsb'_append_eq_left BitVec.extractLsb'_append_eq_right⟩
  exact hsplit.comp pc1_bijective

/-- The three low bits of a half and of its rotation show all four bits of it. -/
theorem eq_of_low_of_low_rotl4 {c d : U4} (hlow : c.extractLsb' 0 3 = d.extractLsb' 0 3)
    (hrot : (rotl4 c).extractLsb' 0 3 = (rotl4 d).extractLsb' 0 3) : c = d := by
  revert c d
  decide

/-- The round keys without a rotation and after one determine the master key (41_key_schedule.md R83). -/
theorem generate_injective : Injective generate := by
  intro k l hkl
  have hkeys (i : Fin 16) :
      roundKeyOf (rotateBoth^[cumShift i] (seedHalves k)) = roundKeyOf (rotateBoth^[cumShift i] (seedHalves l)) := by
    rw [← getElem_generate, ← getElem_generate, hkl]
  have hzero : roundKeyOf (seedHalves k) = roundKeyOf (seedHalves l) := hkeys 2
  have hone : roundKeyOf (rotateBoth (seedHalves k)) = roundKeyOf (rotateBoth (seedHalves l)) := hkeys 0
  obtain ⟨hc, hd⟩ := (roundKeyOf_eq_iff _ _).mp hzero
  obtain ⟨hc', hd'⟩ := (roundKeyOf_eq_iff _ _).mp hone
  exact seedHalves_bijective.injective
    (Prod.ext (eq_of_low_of_low_rotl4 hc hc') (eq_of_low_of_low_rotl4 hd hd'))

/-! ### Equal round keys (41_key_schedule.md R83) -/

/-- A round key depends on its index only through `CUM`. -/
theorem getElem_generate_congr (key : U8) {i j : Fin 16} (h : cumShift i = cumShift j) :
    (generate key)[i] = (generate key)[j] := by
  rw [getElem_generate, getElem_generate, h]

theorem generate_eq_replicate {key : U8} (h : IsFixedPt rotateBoth (seedHalves key)) :
    generate key = Vector.replicate 16 (roundKeyOf (seedHalves key)) := by
  obtain ⟨hc, hd⟩ := (isFixedPt_prodMap _).mp h
  apply Vector.ext
  intro i hi
  rw [Vector.getElem_replicate]
  exact getElem_generate_of_fixed rfl hc hd ⟨i, hi⟩

/-- Round keys 2 and 0 are those without a rotation and after one, so they differ unless a rotation changes nothing. -/
theorem generate_constant_iff (key : U8) :
    (∀ i j : Fin 16, (generate key)[i] = (generate key)[j]) ↔ IsFixedPt rotateBoth (seedHalves key) := by
  constructor
  · intro h
    have hkeys := h 2 0
    rw [getElem_generate, getElem_generate] at hkeys
    exact (iterate_rotateBoth_eq_of_roundKeyOf hkeys).symm
  · intro h i j
    rw [generate_eq_replicate h]
    exact (Vector.getElem_replicate i.isLt).trans (Vector.getElem_replicate j.isLt).symm

theorem isFixedPt_rotateBoth_iff (h : U4 × U4) :
    IsFixedPt rotateBoth h ↔ (h.1 = 0x0#4 ∨ h.1 = 0xF#4) ∧ (h.2 = 0x0#4 ∨ h.2 = 0xF#4) := by
  have hhalf : ∀ c : U4, IsFixedPt rotl4 c ↔ c = 0x0#4 ∨ c = 0xF#4 := by decide
  rw [isFixedPt_prodMap, hhalf, hhalf]

/-- The four keys whose halves no rotation changes. -/
theorem isFixedPt_seedHalves_iff (key : U8) :
    IsFixedPt rotateBoth (seedHalves key) ↔ key = 0x00#8 ∨ key = 0x78#8 ∨ key = 0x87#8 ∨ key = 0xFF#8 := by
  have hkey (k : U8) : key = k ↔ (seedHalves key).1 = (seedHalves k).1 ∧ (seedHalves key).2 = (seedHalves k).2 := by
    rw [← Prod.ext_iff, seedHalves_bijective.injective.eq_iff]
  have hzero : seedHalves 0x00#8 = (0x0#4, 0x0#4) := rfl
  have hhigh : seedHalves 0x78#8 = (0xF#4, 0x0#4) := rfl
  have hlow : seedHalves 0x87#8 = (0x0#4, 0xF#4) := rfl
  have hones : seedHalves 0xFF#8 = (0xF#4, 0xF#4) := rfl
  rw [isFixedPt_rotateBoth_iff, hkey, hkey, hkey, hkey, hzero, hhigh, hlow, hones]
  tauto

/-! ### How many round keys are distinct (41_key_schedule.md R83) -/

theorem isPeriodicPt_four_rotateBoth (h : U4 × U4) : IsPeriodicPt rotateBoth 4 h := iterate_rotateBoth_mod 4 h

/-- An orbit has as many points as its period, however often it is gone round. -/
theorem card_image_iterate_range {α : Type} [DecidableEq α] {f : α → α} {x : α} {n : Nat} (hn : 0 < n)
    (h : IsPeriodicPt f n x) : #((range n).image (f^[·] x)) = minimalPeriod f x := by
  have hpos : 0 < minimalPeriod f x := h.minimalPeriod_pos hn
  have himage : (range n).image (f^[·] x) = (range (minimalPeriod f x)).image (f^[·] x) := by
    refine Subset.antisymm (fun y hy => ?_) (image_subset_image (range_mono (h.minimalPeriod_le hn)))
    obtain ⟨m, -, rfl⟩ := mem_image.mp hy
    exact mem_image.mpr ⟨m % minimalPeriod f x, mem_range.mpr (Nat.mod_lt _ hpos), iterate_mod_minimalPeriod_eq⟩
  rw [himage, card_image_of_injOn, card_range]
  simpa using iterate_injOn_Iio_minimalPeriod

theorem toFinset_map_eq_image {α β : Type} [DecidableEq α] [DecidableEq β] (f : α → β) (l : List α) :
    (l.map f).toFinset = l.toFinset.image f :=
  Multiset.toFinset_map f l

/-- A schedule has as many round keys as its halves have rotations: `CUM` takes all four values. -/
theorem dedup_length_generate (key : U8) :
    (generate key).toList.dedup.length = minimalPeriod rotateBoth (seedHalves key) := by
  have hcum : ((List.range 16).map cumShift).toFinset = range 4 := by decide
  have hinj : Set.InjOn roundKeyOf ((range 4).image (rotateBoth^[·] (seedHalves key)) : Finset (U4 × U4)) := by
    intro g hg h hh heq
    obtain ⟨m, -, rfl⟩ := mem_image.mp hg
    obtain ⟨n, -, rfl⟩ := mem_image.mp hh
    exact iterate_rotateBoth_eq_of_roundKeyOf heq
  calc (generate key).toList.dedup.length
      = #((range 4).image fun n => roundKeyOf (rotateBoth^[n] (seedHalves key))) := by
        rw [← List.card_toFinset, toList_generate, toFinset_map_eq_image, hcum]
    _ = #((range 4).image (rotateBoth^[·] (seedHalves key))) := by
        rw [← card_image_of_injOn hinj, image_image]
        rfl
    _ = minimalPeriod rotateBoth (seedHalves key) :=
        card_image_iterate_range (by decide) (isPeriodicPt_four_rotateBoth _)

theorem countP_range_eq_card (p : U8 → Bool) :
    (List.range 256).countP (fun n => p (BitVec.ofNat 8 n)) = #{key | p key = true} := by
  have hcard : (List.range 256).countP (fun n => p (BitVec.ofNat 8 n)) =
      #{n ∈ range 256 | p (BitVec.ofNat 8 n) = true} := by
    rw [List.countP_eq_length_filter, ← List.toFinset_card_of_nodup (List.nodup_range.filter _), List.toFinset_filter,
      List.toFinset_range]
  rw [hcard]
  refine card_nbij' (BitVec.ofNat 8) BitVec.toNat (fun n hn => ?_) (fun key hkey => ?_) (fun n hn => ?_)
    (fun key _ => by simp)
  · simpa using (mem_filter.mp hn).2
  · simpa [key.isLt] using hkey
  · simpa using (mem_filter.mp hn).1

/-- Each pair of halves is that of one master key. -/
theorem countP_dedup_length_generate (k : Nat) :
    (List.range 256).countP (fun n => (generate (BitVec.ofNat 8 n)).toList.dedup.length == k) =
      #{h | minimalPeriod rotateBoth h = k} := by
  rw [countP_range_eq_card fun key => (generate key).toList.dedup.length == k]
  exact card_bijective seedHalves seedHalves_bijective fun key => by simp [dedup_length_generate]

theorem card_isPeriodicPt_rotateBoth (n : Nat) :
    #{h | IsPeriodicPt rotateBoth n h} = #{c | IsPeriodicPt rotl4 n c} ^ 2 := by
  rw [sq, ← card_product, ← filter_product, univ_product_univ]
  simp only [isPeriodicPt_prodMap]

theorem minimalPeriod_eq_two_pow_succ_iff {α : Type} {f : α → α} {x : α} {k : Nat} :
    minimalPeriod f x = 2 ^ (k + 1) ↔ IsPeriodicPt f (2 ^ (k + 1)) x ∧ ¬ IsPeriodicPt f (2 ^ k) x := by
  constructor
  · intro h
    have hlt : 2 ^ k < minimalPeriod f x := h ▸ Nat.pow_lt_pow_succ Nat.one_lt_two
    exact ⟨h ▸ isPeriodicPt_minimalPeriod f x, not_isPeriodicPt_of_pos_of_lt_minimalPeriod (by positivity) hlt⟩
  · exact fun ⟨hper, hnot⟩ => minimalPeriod_eq_prime_pow hnot hper

/-- The pairs of period `2 ^ (k + 1)`: those that so many rotations keep, without those that half as many do. -/
theorem card_minimalPeriod_rotateBoth (k : Nat) :
    #{h | minimalPeriod rotateBoth h = 2 ^ (k + 1)} =
      #{c | IsPeriodicPt rotl4 (2 ^ (k + 1)) c} ^ 2 - #{c | IsPeriodicPt rotl4 (2 ^ k) c} ^ 2 := by
  have hsub : univ.filter (IsPeriodicPt rotateBoth (2 ^ k)) ⊆ univ.filter (IsPeriodicPt rotateBoth (2 ^ (k + 1))) :=
    monotone_filter_right _ fun h _ hper => hper.mul_const 2
  simp only [minimalPeriod_eq_two_pow_succ_iff]
  rw [filter_and_not, card_sdiff_of_subset hsub, card_isPeriodicPt_rotateBoth, card_isPeriodicPt_rotateBoth]

/-- Two rotations keep 4 halves and one keeps 2. -/
theorem card_minimalPeriod_two : #{h | minimalPeriod rotateBoth h = 2} = 12 :=
  (card_minimalPeriod_rotateBoth 0).trans (by decide)

/-- Four rotations keep all 16 halves and two keep 4. -/
theorem card_minimalPeriod_four : #{h | minimalPeriod rotateBoth h = 4} = 240 :=
  (card_minimalPeriod_rotateBoth 1).trans (by decide)

/-- Settles O8: each clause by how the pair of halves rotates (fixed, of period 2 or 4), and every pair is that of one
key. -/
theorem keyScheduleProperties : Obligations.KeyScheduleProperties := by
  refine ⟨fun key => ?groups,
    fun key hc hd => (generate_constant_iff key).mpr ((isFixedPt_rotateBoth_iff _).mpr ⟨hc, hd⟩),
    fun key => (generate_constant_iff key).trans (isFixedPt_seedHalves_iff key),
    generate_eq_replicate rfl, generate_eq_replicate rfl, generate_eq_replicate rfl, generate_eq_replicate rfl,
    (countP_dedup_length_generate 2).trans card_minimalPeriod_two,
    (countP_dedup_length_generate 4).trans card_minimalPeriod_four, generate_injective⟩
  case groups =>
    have hsame (i j : Fin 16) (h : cumShift i = cumShift j) := getElem_generate_congr key h
    exact ⟨⟨hsame 2 4 rfl, hsame 4 6 rfl, hsame 6 15 rfl⟩, ⟨hsame 0 9 rfl, hsame 9 11 rfl, hsame 11 13 rfl⟩,
      ⟨hsame 1 3 rfl, hsame 3 5 rfl, hsame 5 7 rfl⟩, ⟨hsame 8 10 rfl, hsame 10 12 rfl, hsame 12 14 rfl⟩⟩

end Sys2Proof.Machine
end

section
/-! What the commands write and leave unchanged: KEY writes the whole schedule and `KV`, a block command its result. -/

namespace Sys2Proof.Machine

theorem eq_loadKeys_of_exec_key {k : U8} {s t : State} (h : exec (.key k) s = .next t) :
    t = s.loadKeys (generate k) :=
  (Host.Outcome.next.inj h).symm

/-- Settles O27: the state after a command is `loadKeys` or `storeResult` of the state before it. -/
theorem commandFrames : Obligations.CommandFrames := by
  refine fun s t => ⟨fun k h => ?key, fun i b hi h => ?block⟩
  case key =>
    rw [eq_loadKeys_of_exec_key h]
    exact ⟨rfl, rfl, rfl, rfl, rfl⟩
  case block =>
    obtain ⟨k, rfl, -⟩ | ⟨-, -, v, rfl⟩ := exec_next h
    · simp at hi
    · exact ⟨rfl, rfl, rfl, rfl, rfl⟩

/-- Settles O9: KEY loads the schedule of its operand from every state, so a second one loads the same again. -/
theorem keyCommandLoadsSchedule : Obligations.KeyCommandLoadsSchedule := by
  refine ⟨exec_key, fun k => decode_encode (.key k), fun k s t u hst htu => ?twice, fun i => ⟨?zero, ?ones⟩, rfl, rfl⟩
  case twice =>
    rw [eq_loadKeys_of_exec_key htu, eq_loadKeys_of_exec_key hst, State.loadKeys_rk, State.loadKeys_rk]
  case zero => exact getElem_generate_of_fixed (h := (0x0, 0x0)) rfl rfl rfl i
  case ones => exact getElem_generate_of_fixed (h := (0xF, 0xF)) rfl rfl rfl i

end Sys2Proof.Machine
end

section
/-! The round function and the rounds: the address bits of the round function are bits of the half and of the round key
added, a round followed by a swap undoes itself, and sixteen rounds are one fold over the round keys in either order. -/

namespace Sys2Proof.Machine

/-! ### The round function (42_feistel_round.md R90) -/

theorem sboxRow_eq_ofBitsMsb (v : U6) : sboxRow v = ofBitsMsb 2 [v.getLsbD 5, v.getLsbD 0] := by
  revert v
  decide

theorem sboxCol_eq_ofBitsMsb (v : U6) :
    sboxCol v = ofBitsMsb 4 [v.getLsbD 4, v.getLsbD 3, v.getLsbD 2, v.getLsbD 1] := by
  revert v
  decide

theorem sboxRow_expand_xor (r : U4) (k : U6) :
    sboxRow (expand r ^^^ k) = ofBitsMsb 2 [r.getLsbD 0 ^^ k.getLsbD 5, r.getLsbD 2 ^^ k.getLsbD 0] := by
  have h5 : (expand r).getLsbD 5 = r.getLsbD 0 := getLsbD_expand r 0
  have h0 : (expand r).getLsbD 0 = r.getLsbD 2 := getLsbD_expand r 5
  simp only [sboxRow_eq_ofBitsMsb, BitVec.getLsbD_xor, h5, h0]

theorem sboxCol_expand_xor (r : U4) (k : U6) :
    sboxCol (expand r ^^^ k) = ofBitsMsb 4 [r.getLsbD 3 ^^ k.getLsbD 4, r.getLsbD 2 ^^ k.getLsbD 3,
      r.getLsbD 1 ^^ k.getLsbD 2, r.getLsbD 0 ^^ k.getLsbD 1] := by
  have h4 : (expand r).getLsbD 4 = r.getLsbD 3 := getLsbD_expand r 1
  have h3 : (expand r).getLsbD 3 = r.getLsbD 2 := getLsbD_expand r 2
  have h2 : (expand r).getLsbD 2 = r.getLsbD 1 := getLsbD_expand r 3
  have h1 : (expand r).getLsbD 1 = r.getLsbD 0 := getLsbD_expand r 4
  simp only [sboxCol_eq_ofBitsMsb, BitVec.getLsbD_xor, h4, h3, h2, h1]

/-- A round key equal to the expanded half cancels it, so the S-box reads its first cell. -/
theorem roundFunction_expand (T : SboxTable) (r : U4) : roundFunction T r (expand r) = rotl4 (T 0 0) := by
  rw [roundFunction, BitVec.xor_self]
  rfl

theorem roundFunction_of_zero_table {T : SboxTable} (hT : ∀ row col, T row col = 0) (r : U4) (k : U6) :
    roundFunction T r k = 0 := by
  rw [roundFunction, sbox, hT]
  rfl

/-- Settles O10: adding the round key bit by bit to the expanded half gives the address; the corner cases that read the
first cell are those where the round key cancels the expanded half. -/
theorem roundFunctionAddress : Obligations.RoundFunctionAddress := by
  refine ⟨fun T => ⟨fun _ _ => rfl, fun r k => ?address, roundFunction_expand T, roundFunction_expand T 0x0,
    roundFunction_expand T 0xF, rfl, rfl, rfl⟩, fun T => roundFunction_of_zero_table⟩
  case address => rw [roundFunction, sbox, sboxRow_expand_xor, sboxCol_expand_xor]

/-! ### One round (42_feistel_round.md R91, R92) -/

theorem feistelRound_of_roundFunction_eq_zero {T : SboxTable} {h : U4 × U4} {k : U6} (hf : roundFunction T h.2 k = 0) :
    feistelRound T h k = h.swap := by
  rw [feistelRound, hf]
  exact congrArg (Prod.mk h.2) BitVec.xor_zero

/-- After the swap the right half is unchanged, so the second round adds the same value to the left half again. -/
theorem swap_feistelRound_swap_feistelRound (T : SboxTable) (h : U4 × U4) (k : U6) :
    (feistelRound T (feistelRound T h k).swap k).swap = h := by
  simp [feistelRound]

/-- Settles O11: a round adds `f` of the right half to the left half, and adding it twice is adding nothing. -/
theorem feistelRoundSelfInverse : Obligations.FeistelRoundSelfInverse := by
  refine fun T => ⟨fun _ _ _ => rfl, fun l r k hf => feistelRound_of_roundFunction_eq_zero hf, ?zeros,
    fun l r k => ⟨rfl, swap_feistelRound_swap_feistelRound T (l, r) k⟩⟩
  case zeros =>
    have hf : roundFunction T 0x0 0x00 = rotl4 (T 0 0) := roundFunction_expand T 0x0
    exact congrArg (Prod.mk 0x0) (hf ▸ BitVec.zero_xor)

/-! ### Sixteen rounds (42_feistel_round.md R93) -/

theorem map_getElem_finRange (rk : RoundKeys) : ((List.finRange 16).map fun i => rk[i]) = rk.toList := by
  apply List.ext_getElem <;> simp

theorem KeyOrder.index_reverse (i : Fin 16) : KeyOrder.index .reverse i = i.rev := by
  apply Fin.ext
  simp [KeyOrder.index]

theorem rounds16_forward (T : SboxTable) (rk : RoundKeys) (h : U4 × U4) :
    rounds16 T rk .forward h = rk.toList.foldl (feistelRound T) h := by
  rw [rounds16_eq_foldl, ← map_getElem_finRange]
  rfl

/-- The reverse order indexes the register file by the reversed list of indices. -/
theorem rounds16_reverse (T : SboxTable) (rk : RoundKeys) (h : U4 × U4) :
    rounds16 T rk .reverse h = rk.toList.reverse.foldl (feistelRound T) h := by
  rw [rounds16_eq_foldl, ← map_getElem_finRange, ← List.map_reverse, List.finRange_reverse, List.map_map]
  simp only [KeyOrder.index_reverse, Function.comp_def]

/-- Under the all-zero table every round swaps the halves, and an even number of swaps changes nothing. -/
theorem rounds16_of_zero_table {T : SboxTable} (hT : ∀ row col, T row col = 0) (rk : RoundKeys) (order : KeyOrder)
    (h : U4 × U4) : rounds16 T rk order h = h := by
  have hround (lr : U4 × U4) (k : U6) : feistelRound T lr k = lr.swap :=
    feistelRound_of_roundFunction_eq_zero (roundFunction_of_zero_table hT _ k)
  simp only [rounds16, hround, List.foldl_const, List.length_finRange]
  exact congrFun (Function.Involutive.iterate_even Prod.swap_swap (by decide)) h

theorem rounds16_forward_eq_reverse {rk : RoundKeys} (hk : ∀ i j : Fin 16, rk[i] = rk[j]) (T : SboxTable)
    (h : U4 × U4) : rounds16 T rk .forward h = rounds16 T rk .reverse h := by
  simp only [rounds16, hk _ 0]

theorem exec_block_of_no_keys {i : Instr} {s : State} (hr : readsKeys i = true) (hk : s.kv = false) :
    exec i s = .fault .keyNotLoaded := by
  obtain ⟨f, hf⟩ := exec_of_readsKeys hr
  rw [hf, blockCommand_of_no_keys f hk]

/-- A block command runs the rounds in the order that bit 8 of its word names, or faults without a key. -/
theorem exec_block_eq_rounds16 {i : Instr} (hr : readsKeys i = true) (s : State) :
    exec i s =
      if s.kv then
        .next (s.storeResult (joinSwapped (rounds16 Config.sboxTable s.rk
          (if (encode i).getLsbD 8 then .reverse else .forward) (splitByte i.data))))
      else .fault .keyNotLoaded := by
  cases hk : s.kv with
  | false => exact exec_block_of_no_keys hr hk
  | true =>
    rw [exec_block_of_encode_bit hr hk]
    cases (encode i).getLsbD 8 <;> rfl

/-- Settles O12: both orders are folds over the register file, and the bit of the word only chooses between them. -/
theorem sixteenRoundsInKeyOrder : Obligations.SixteenRoundsInKeyOrder := by
  refine ⟨fun T rk h => ⟨rounds16_forward T rk h, rounds16_reverse T rk h⟩,
    fun T rk order h hT => rounds16_of_zero_table hT rk order h,
    fun T rk h hk => rounds16_forward_eq_reverse hk T h,
    fun T hT => rounds16_of_zero_table hT _ _ _, fun w i s hd hr => ?word⟩
  case word =>
    obtain rfl := encode_of_decode hd
    have hdata : dataField (encode i) = i.data := (Laws.EncodeFields.fields _ _).2
    rw [hdata]
    exact exec_block_eq_rounds16 hr s

end Sys2Proof.Machine
end

section
/-! The block functions and the commands ENC and DEC: the rounds in one order undo those in the other across a swap of
the halves, the swap is what joining and splitting a byte again does, and so each block function inverts the other. -/

namespace Sys2Proof.Machine

open Function

/-! ### The rounds undone (43_block_ops.md R104) -/

/-- The last round is undone first: a fold of rounds is undone by the fold over the reversed keys, the halves swapped
before it and after it. -/
theorem foldl_feistelRound_reverse_swap (T : SboxTable) (ks : List U6) (h : U4 × U4) :
    ks.reverse.foldl (feistelRound T) (ks.foldl (feistelRound T) h).swap = h.swap := by
  induction ks generalizing h with
  | nil => rfl
  | cons k ks ih =>
    rw [List.foldl_cons, List.reverse_cons, List.foldl_concat, ih]
    exact Prod.swap_injective (swap_feistelRound_swap_feistelRound T h k)

theorem rounds16_reverse_swap_forward (T : SboxTable) (rk : RoundKeys) (h : U4 × U4) :
    rounds16 T rk .reverse (rounds16 T rk .forward h).swap = h.swap := by
  rw [rounds16_forward, rounds16_reverse, foldl_feistelRound_reverse_swap]

theorem rounds16_forward_swap_reverse (T : SboxTable) (rk : RoundKeys) (h : U4 × U4) :
    rounds16 T rk .forward (rounds16 T rk .reverse h).swap = h.swap := by
  have hfold := foldl_feistelRound_reverse_swap T rk.toList.reverse h
  rwa [List.reverse_reverse, ← rounds16_forward, ← rounds16_reverse] at hfold

/-! ### The block functions inverse to each other (43_block_ops.md R104, R105) -/

theorem splitByte_joinSwapped (h : U4 × U4) : splitByte (joinSwapped h) = h.swap :=
  Prod.ext (extractLsb'_high_joinSwapped h) (extractLsb'_low_joinSwapped h)

theorem joinSwapped_swap_splitByte (b : U8) : joinSwapped (splitByte b).swap = b :=
  (BitVec.extractLsb'_append_extractLsb'_eq_extractLsb' rfl).trans BitVec.extractLsb'_eq_self

theorem decryptBlock_encryptBlock (T : SboxTable) (rk : RoundKeys) :
    LeftInverse (decryptBlock T rk) (encryptBlock T rk) := by
  intro x
  rw [decryptBlock, encryptBlock, splitByte_joinSwapped, rounds16_reverse_swap_forward, joinSwapped_swap_splitByte]

theorem encryptBlock_decryptBlock (T : SboxTable) (rk : RoundKeys) :
    RightInverse (decryptBlock T rk) (encryptBlock T rk) := by
  intro y
  rw [encryptBlock, decryptBlock, splitByte_joinSwapped, rounds16_forward_swap_reverse, joinSwapped_swap_splitByte]

theorem encryptBlock_bijective (T : SboxTable) (rk : RoundKeys) : Bijective (encryptBlock T rk) :=
  ⟨(decryptBlock_encryptBlock T rk).injective, (encryptBlock_decryptBlock T rk).surjective⟩

/-- Settles O17: decryption is a left and a right inverse of encryption. -/
theorem encryptionIsPermutation : Obligations.EncryptionIsPermutation :=
  fun T rk => ⟨encryptBlock_bijective T rk, encryptBlock_decryptBlock T rk⟩

/-! ### The commands ENC and DEC with a key loaded (43_block_ops.md R102, R103) -/

theorem exec_enc_of_keys {s : State} (x : U8) (hk : s.kv = true) :
    exec (.enc x) s = .next (s.storeResult (encryptBlock Config.sboxTable s.rk x)) :=
  (exec_enc x s).trans (blockCommand_of_keys _ hk)

theorem exec_dec_of_keys {s : State} (y : U8) (hk : s.kv = true) :
    exec (.dec y) s = .next (s.storeResult (decryptBlock Config.sboxTable s.rk y)) :=
  (exec_dec y s).trans (blockCommand_of_keys _ hk)

/-- Settles O16: KEY sets the flag that ENC and DEC need, and they keep the round keys, so DEC undoes ENC. -/
theorem decryptionInvertsEncryption : Obligations.DecryptionInvertsEncryption :=
  ⟨fun T key => decryptBlock_encryptBlock T (generate key), decryptBlock_encryptBlock,
    fun key x s => ⟨_, _, _, exec_key key s, exec_enc_of_keys x rfl, exec_dec_of_keys _ rfl,
      decryptBlock_encryptBlock _ _ x, rfl, rfl, rfl⟩⟩

/-! ### Equal round keys and the all-zero table (43_block_ops.md R106) -/

theorem equal_generate_iff (key : U8) :
    (∀ i j : Fin 16, (generate key)[i] = (generate key)[j]) ↔
      (key = 0x00 ∨ key = 0x78 ∨ key = 0x87 ∨ key = 0xFF) :=
  (generate_constant_iff key).trans (isFixedPt_seedHalves_iff key)

theorem encryptBlock_eq_decryptBlock {rk : RoundKeys} (hk : ∀ i j : Fin 16, rk[i] = rk[j]) (T : SboxTable) (x : U8) :
    encryptBlock T rk x = decryptBlock T rk x :=
  congrArg joinSwapped (rounds16_forward_eq_reverse hk T (splitByte x))

theorem encryptBlock_of_zero_table {T : SboxTable} (hT : ∀ row col, T row col = 0) (rk : RoundKeys) (x : U8) :
    encryptBlock T rk x = joinSwapped (splitByte x) := by
  rw [encryptBlock, rounds16_of_zero_table hT]

theorem decryptBlock_of_zero_table {T : SboxTable} (hT : ∀ row col, T row col = 0) (rk : RoundKeys) (x : U8) :
    decryptBlock T rk x = joinSwapped (splitByte x) := by
  rw [decryptBlock, rounds16_of_zero_table hT]

/-- Settles O18: with equal keys the orders agree, so encryption is its own inverse; with the all-zero table the rounds
change nothing, and joining the halves swaps the nibbles. -/
theorem constantScheduleInvolution : Obligations.ConstantScheduleInvolution := by
  refine ⟨equal_generate_iff, fun T rk x hk => ⟨encryptBlock_eq_decryptBlock hk T x, ?involution⟩,
    fun T key x hT => ⟨encryptBlock_of_zero_table hT _ x, decryptBlock_of_zero_table hT _ x⟩⟩
  case involution =>
    rw [encryptBlock_eq_decryptBlock hk T (encryptBlock T rk x)]
    exact decryptBlock_encryptBlock T rk x

/-! ### ENC and DEC completed (43_block_ops.md R102, R103) -/

/-- The spec's vector under its test table, each round run by the model. -/
theorem encryptBlock_testSboxA : encryptBlock testSboxA (generate 0xAB) 0x00 = 0x91 := by decide

/-- Settles O14: ENC is a block command with the ciphertext as its result, and equal round keys give ENC and DEC the
same result. -/
theorem encCommandStoresCiphertext : Obligations.EncCommandStoresCiphertext := by
  refine ⟨fun pt _ => exec_enc_of_keys pt, fun _ _ => exec_block_of_no_keys rfl, fun pt => decode_encode (.enc pt),
    fun key pt s hkey hrk => ?constant, encryptBlock_testSboxA⟩
  case constant =>
    have hresult := encryptBlock_eq_decryptBlock ((equal_generate_iff key).mpr hkey) Config.sboxTable pt
    rw [exec_enc, exec_dec, blockCommand, blockCommand, hrk, hresult]

/-- Settles O15: DEC is a block command with the plaintext as its result, the byte that ENC takes to its operand. -/
theorem decCommandStoresPlaintext : Obligations.DecCommandStoresPlaintext := by
  refine ⟨fun ct _ => exec_dec_of_keys ct, fun _ _ => exec_block_of_no_keys rfl, fun ct => decode_encode (.dec ct),
    fun T rk => (encryptBlock_bijective T rk).existsUnique, fun y s t u hdec henc => ?round_trip, ?vector,
    fun T => decryptBlock_encryptBlock T (generate 0xAB) 0x00⟩
  case round_trip =>
    have hk : s.kv = true := kv_of_exec_next hdec rfl
    obtain rfl := Host.Outcome.next.inj ((exec_dec_of_keys y hk).symm.trans hdec)
    obtain rfl := Host.Outcome.next.inj ((exec_enc_of_keys _ hk).symm.trans henc)
    exact encryptBlock_decryptBlock Config.sboxTable s.rk y
  case vector =>
    rw [← encryptBlock_testSboxA]
    exact decryptBlock_encryptBlock testSboxA (generate 0xAB) 0x00

end Sys2Proof.Machine
end

section
/-! Faults and the host's duties: the ports that fault while their register holds no value, what a ready block does with
an element that keeps its duty or breaks it, and where a run over the host's list ends. -/

namespace Sys2Proof.Machine

/-! ### Unwritten reads (60_exceptions.md R113) -/

theorem observe_dout_of_no_result {s : State} (rst : Bool) (h : s.dv = false) :
    observe rst .dout s = .fault .unwrittenRead := by
  simp [observe, State.doutValid, h]

theorem observe_rkBus_of_no_keys {s : State} (rst : Bool) (h : s.kv = false) :
    observe rst .rkBus s = .fault .unwrittenRead := by
  simp [observe, State.keyValid, h]

theorem observe_dout_of_result {s : State} (rst : Bool) (hi : s.inFlight = none) (h : s.dv = true) :
    observe rst .dout s = .next (.byte s.dout) :=
  if_pos ((doutValid_of_no_flight hi).trans h)

theorem observe_rkBus_of_keys {s : State} (rst : Bool) (hi : s.inFlight = none) (h : s.kv = true) :
    observe rst .rkBus s = .next (.bus (rkBusOf s.rk)) :=
  if_pos ((keyValid_of_no_flight hi).trans h)

/-- Settles O32: a flag at 0 keeps its valid port at 0, and with nothing in flight a flag at 1 shows there. -/
theorem unwrittenReadsFault : Obligations.UnwrittenReadsFault :=
  fun _ rst => ⟨observe_dout_of_no_result rst, observe_rkBus_of_no_keys rst, ⟨_, rfl⟩, ⟨_, rfl⟩,
    observe_dout_of_result rst, observe_rkBus_of_keys rst⟩

theorem observe_cmdReady_of_no_fault {s : State} (rst : Bool) (h : s.fault = none) :
    observe rst .cmdReady s = .next (.bit (s.cmdReady rst)) := by
  cases rst <;> simp [observe, h]

/-! ### No step refuses -/

theorem exec_ne_refused (i : Instr) (s : State) (r : Refusal) : exec i s ≠ .refused r := by
  obtain ⟨k, -, h⟩ | ⟨-, -, v, h⟩ | ⟨-, -, h⟩ := exec_cases i s <;> simp [h]

theorem takeCommand_ne_refused (w : CmdWord) (s : State) (r : Refusal) : takeCommand w s ≠ .refused r := by
  cases hf : s.fault with
  | some c => simp [takeCommand_of_fault w hf]
  | none =>
    cases hd : decode w with
    | ok i => simpa [takeCommand_of_ok hf hd] using exec_ne_refused i s r
    | error e => cases e; simp [takeCommand_of_reserved hf hd]

theorem takeRead_ne_refused (p : OutPort) (s : State) (r : Refusal) : takeRead p s ≠ .refused r := by
  obtain ⟨v, -, h⟩ | ⟨c, -, h⟩ := takeRead_cases p s <;> simp [h]

theorem stepEvent_ne_refused (e : HostEvent) (s : State) (r : Refusal) : stepEvent e s ≠ .refused r := by
  cases e with
  | reset => simp [stepEvent]
  | command w => exact takeCommand_ne_refused w s r
  | read p => exact takeRead_ne_refused p s r

theorem completeInFlight_ne_refused (f : InFlight) (s : State) (r : Refusal) : completeInFlight f s ≠ .refused r := by
  cases hf : s.fault with
  | some c => simp [completeInFlight, hf]
  | none => simpa [completeInFlight, hf] using exec_ne_refused f.instr s.clearInFlight r

theorem stayIdle_ne_refused (s : State) (r : Refusal) : stayIdle s ≠ .refused r := by
  cases hf : s.fault <;> simp [stayIdle, hf]

theorem step_ne_refused (s : State) (r : Refusal) : step s ≠ .refused r := by
  obtain ⟨es, -, h⟩ | ⟨f, -, -, h⟩ | ⟨e, es, -, -, -, h⟩ | ⟨-, -, h⟩ := step_cases s <;> rw [h]
  · simp
  · exact completeInFlight_ne_refused f s r
  · exact stepEvent_ne_refused e _ r
  · exact stayIdle_ne_refused s r

/-! ### The host's duties (70_reset_and_hazards.md R137) -/

theorem duty_command_of_ok {w : CmdWord} {i : Instr} (kv dv : Bool) (hd : decode w = .ok i) :
    (HostEvent.command w).duty kv dv = (!readsKeys i || kv) := by
  simp [HostEvent.duty, hd]

theorem duty_command_of_reserved {w : CmdWord} (kv dv : Bool) (hd : decode w = .error .reservedOp) :
    (HostEvent.command w).duty kv dv = false := by
  simp [HostEvent.duty, hd]

/-- An accepted command completes when it reads no keys or finds them loaded (60_exceptions.md R112). -/
theorem exec_of_duty {i : Instr} {s : State} (h : (!readsKeys i || s.kv) = true) : ∃ t, exec i s = .next t := by
  obtain ⟨k, -, hn⟩ | ⟨-, -, v, hn⟩ | ⟨hr, hk, -⟩ := exec_cases i s
  · exact ⟨_, hn⟩
  · exact ⟨_, hn⟩
  · simp [hr, hk] at h

theorem takeCommand_of_duty {w : CmdWord} {s : State} (hf : s.fault = none)
    (h : (HostEvent.command w).duty s.kv s.dv = true) : ∃ t, takeCommand w s = .next t := by
  cases hd : decode w with
  | ok i =>
    rw [takeCommand_of_ok hf hd]
    exact exec_of_duty (duty_command_of_ok s.kv s.dv hd ▸ h)
  | error e => cases e; simp [duty_command_of_reserved s.kv s.dv hd] at h

/-- The opcode tells which duty a command word breaks. -/
theorem takeCommand_of_broken_duty {w : CmdWord} {s : State} (hf : s.fault = none)
    (h : (HostEvent.command w).duty s.kv s.dv = false) :
    (opField w = 0b00#2 ∧ takeCommand w s = .fault .reservedOp) ∨
    (opField w ≠ 0b00#2 ∧ takeCommand w s = .fault .keyNotLoaded) := by
  cases hd : decode w with
  | error e => cases e; exact .inl ⟨(decode_eq_reserved_iff w).mp hd, takeCommand_of_reserved hf hd⟩
  | ok i =>
    have hop : opField w ≠ 0b00#2 := fun hop => by simp [(decode_eq_reserved_iff w).mpr hop] at hd
    obtain ⟨hr, hk⟩ : readsKeys i = true ∧ s.kv = false := by simpa [duty_command_of_ok s.kv s.dv hd] using h
    exact .inr ⟨hop, (takeCommand_of_ok hf hd).trans (exec_block_of_no_keys hr hk)⟩

theorem takeRead_of_observe_next {p : OutPort} {s : State} {v : PortValue} (h : observe false p s = .next v) :
    takeRead p s = .next s := by
  simp [takeRead, h]

theorem takeRead_of_observe_fault {p : OutPort} {s : State} {r : Fault} (h : observe false p s = .fault r) :
    takeRead p s = .fault r := by
  simp [takeRead, h]

theorem takeRead_of_duty {p : OutPort} {s : State} (hs : s.Ready) (h : (HostEvent.read p).duty s.kv s.dv = true) :
    takeRead p s = .next s := by
  obtain ⟨hf, hi⟩ := hs
  cases p with
  | cmdReady => exact takeRead_of_observe_next (observe_cmdReady_of_no_fault false hf)
  | dout => exact takeRead_of_observe_next (observe_dout_of_result false hi h)
  | doutValid => rfl
  | keyValid => rfl
  | rkBus => exact takeRead_of_observe_next (observe_rkBus_of_keys false hi h)

/-- Only `dout` and `rk_bus` carry a duty. -/
theorem takeRead_of_broken_duty {p : OutPort} {s : State} (h : (HostEvent.read p).duty s.kv s.dv = false) :
    (p = .dout ∨ p = .rkBus) ∧ takeRead p s = .fault .unwrittenRead := by
  cases p with
  | cmdReady => cases h
  | dout => exact ⟨.inl rfl, takeRead_of_observe_fault (observe_dout_of_no_result false h)⟩
  | doutValid => cases h
  | keyValid => cases h
  | rkBus => exact ⟨.inr rfl, takeRead_of_observe_fault (observe_rkBus_of_no_keys false h)⟩

theorem stepEvent_of_duty {e : HostEvent} {s : State} (hs : s.Ready) (h : e.duty s.kv s.dv = true) :
    ∃ t, stepEvent e s = .next t := by
  cases e with
  | reset => exact ⟨_, rfl⟩
  | command w => exact takeCommand_of_duty hs.1 h
  | read p => exact ⟨s, takeRead_of_duty hs h⟩

theorem stepEvent_of_broken_duty {e : HostEvent} {s : State} (hf : s.fault = none) (h : e.duty s.kv s.dv = false) :
    ∃ r, stepEvent e s = .fault r ∧
      ((∃ w, e = .command w ∧ opField w = 0b00#2 ∧ r = .reservedOp) ∨
       (∃ w, e = .command w ∧ opField w ≠ 0b00#2 ∧ r = .keyNotLoaded) ∨
       ((e = .read .dout ∨ e = .read .rkBus) ∧ r = .unwrittenRead)) := by
  cases e with
  | reset => cases h
  | command w =>
    obtain ⟨hop, hr⟩ | ⟨hop, hr⟩ := takeCommand_of_broken_duty hf h
    · exact ⟨_, hr, .inl ⟨w, rfl, hop, rfl⟩⟩
    · exact ⟨_, hr, .inr (.inl ⟨w, rfl, hop, rfl⟩)⟩
  | read p =>
    obtain ⟨hp, hr⟩ := takeRead_of_broken_duty h
    exact ⟨_, hr, .inr (.inr ⟨hp.imp (congrArg _) (congrArg _), rfl⟩)⟩

/-- Settles O34: a kept duty gives a next state and a broken one the fault of its kind, so the two exclude each other. -/
theorem stepFaultsExactlyOnBrokenDuty : Obligations.StepFaultsExactlyOnBrokenDuty := by
  refine ⟨step_ne_refused, fun s e es hs hh => ?_⟩
  rw [step_of_event hh hs.2]
  have hbroken := stepEvent_of_broken_duty (e := e) (s := s.withHost es) hs.1
  refine ⟨⟨fun ⟨t, ht⟩ => ?kept, stepEvent_of_duty (s := s.withHost es) hs⟩, hbroken⟩
  case kept =>
    by_contra hduty
    obtain ⟨r, hr, -⟩ := hbroken (Bool.eq_false_of_not_eq_true hduty)
    simp [hr] at ht

/-! ### A block command without a key (60_exceptions.md R112) -/

/-- Both opcodes with `op[1] = 1` name a command that reads keys. -/
theorem decode_block_op {op : U2} (data : U8) (hop : op = 0b10#2 ∨ op = 0b11#2) :
    ∃ i, decode (op ++ data) = .ok i ∧ readsKeys i = true := by
  obtain rfl | rfl := hop
  · exact ⟨.enc data, decode_encode (.enc data), rfl⟩
  · exact ⟨.dec data, decode_encode (.dec data), rfl⟩

theorem acceptEdge_of_exec_fault {w : CmdWord} {i : Instr} {s : State} {r : Fault} (tm : Timing)
    (hd : decode w = .ok i) (hx : exec i s = .fault r) : acceptEdge tm w s = .fault r := by
  simp [acceptEdge, hd, hx]

/-- Settles O31: the word's command reads keys, and both the step and the accepting edge ask for its meaning. -/
theorem keylessBlockCommandFaults : Obligations.KeylessBlockCommandFaults := by
  intro s data op hs hk hop
  obtain ⟨i, hd, hr⟩ := decode_block_op data hop
  constructor
  · intro es hh
    have hstep : step s = .fault .keyNotLoaded :=
      (step_of_command hs hh hd).trans (exec_block_of_no_keys (s := s.withHost es) hr hk)
    exact ⟨hstep, faultsArePreciseAndFinal.1 s _ hstep hs.1⟩
  · intro tm inp hacc hword
    rw [edge_of_accepts tm hs hacc, hword]
    exact acceptEdge_of_exec_fault tm hd (exec_block_of_no_keys hr hk)

/-! ### The idle block (60_exceptions.md R124) -/

theorem cmdReady_of_no_flight {s : State} (h : s.inFlight = none) : s.cmdReady false = true := by
  simp [State.cmdReady, h]

/-- Settles O26: no fault code stops the idle step, and an edge without `cmd_valid` accepts nothing. -/
theorem idleBlockHoldsState : Obligations.IdleBlockHoldsState := by
  rintro s ⟨hf, hi⟩
  refine ⟨cmdReady_of_no_flight hi, fun hh => ?step, fun tm inp hrst hvalid => ?edge⟩
  case step => exact (step_of_nothing hh hi).trans (stayIdle_eq_next.mpr ⟨hf, rfl⟩)
  case edge => rw [edge_of_ready tm hrst hf hi, if_neg (Bool.eq_false_iff.mp hvalid)]

/-! ### Runs over the host's list (70_reset_and_hazards.md R142) -/

theorem runHost_of_next {e : HostEvent} {s t : State} (es : List HostEvent) (h : stepEvent e s = .next t) :
    runHost (e :: es) s = runHost es t := by
  simp [runHost, h]

theorem runHost_of_fault {e : HostEvent} {s : State} {r : Fault} (es : List HostEvent) (h : stepEvent e s = .fault r) :
    runHost (e :: es) s = s.recordFault r := by
  simp [runHost, h, settle]

theorem finalObservation_rk_of_keys {s : State} (h : s.kv = true) : (finalObservation s).rk = some s.rk := if_pos h

theorem finalObservation_rk_of_no_keys {s : State} (h : s.kv = false) : (finalObservation s).rk = none :=
  if_neg (Bool.eq_false_iff.mp h)

theorem finalObservation_dout_of_result {s : State} (h : s.dv = true) : (finalObservation s).dout = some s.dout :=
  if_pos h

theorem finalObservation_dout_of_no_result {s : State} (h : s.dv = false) : (finalObservation s).dout = none :=
  if_neg (Bool.eq_false_iff.mp h)

/-- Settles O49: a faulting element ends the run with `settle`, which writes the fault record alone. -/
theorem runEndsAtFirstFault : Obligations.RunEndsAtFirstFault := by
  refine ⟨?stop, fun _ _ _ es => runHost_of_next es, fun _ => rfl, ?tuple⟩
  case stop => exact fun s e es r hf h => (runHost_of_fault es h).trans (State.recordFault_of_none r hf)
  case tuple =>
    exact fun s => ⟨rfl, rfl, rfl, finalObservation_rk_of_keys, finalObservation_rk_of_no_keys,
      finalObservation_dout_of_result, finalObservation_dout_of_no_result⟩

end Sys2Proof.Machine
end

section
/-! Reset and the handshake: an edge with `rst = 1` or a reset next in the host's list resets every block alike, and
without `rst` the command ports are looked at only by the edge that accepts. -/

namespace Sys2Proof.Machine

/-! ### Reset (70_reset_and_hazards.md R130 to R133) -/

/-- Reset has the same effect on every state; only the host's list stays (70_reset_and_hazards.md R132). -/
theorem applyReset_eq_of_host_eq {s t : State} (h : s.host = t.host) : s.applyReset = t.applyReset := by
  simp only [State.applyReset, h]

theorem State.Agree.refl (s : State) : s.Agree s where
  kv := rfl
  dv := rfl
  fault := rfl
  inFlight := rfl
  host := rfl
  rk _ := rfl
  dout _ := rfl

theorem cmdReady_of_rst (s : State) : s.cmdReady true = false := rfl

theorem accepts_of_rst {inp : Inputs} (s : State) (h : inp.rst = true) : accepts inp s = false := by
  simp [accepts, h, cmdReady_of_rst]

/-- Without `rst`, a block with nothing in flight accepts whatever is presented. -/
theorem accepts_of_no_flight {inp : Inputs} {s : State} (hrst : inp.rst = false) (hi : s.inFlight = none) :
    accepts inp s = inp.cmdValid := by
  simp [accepts, hrst, cmdReady_of_no_flight hi]

/-- Settles O37: the edge answers `applyReset`, which of the old state keeps the host's list alone. -/
theorem resetEdgeWins : Obligations.ResetEdgeWins := by
  intro tm inp s hrst
  refine ⟨accepts_of_rst s hrst, cmdReady_of_rst s, s.applyReset, edge_of_rst tm s hrst, rfl, rfl, rfl, rfl, rfl,
    cmdReady_of_no_flight rfl, ?unwritten, ?accepts, ?same⟩
  case unwritten => exact fun rst => ⟨observe_rkBus_of_no_keys rst rfl, observe_dout_of_no_result rst rfl⟩
  case accepts => exact fun inp' hrst' hvalid => (accepts_of_no_flight hrst' rfl).trans hvalid
  case same =>
    intro s' hh
    refine ⟨s'.applyReset, edge_of_rst tm s' hrst, ?_⟩
    rw [applyReset_eq_of_host_eq hh]
    exact State.Agree.refl _

/-- Settles O38: the step takes the reset before the command in flight, and no field but the list survives it. -/
theorem resetAbandonsCommandInFlight : Obligations.ResetAbandonsCommandInFlight := by
  intro s s' es hh hh'
  rw [step_of_reset hh, step_of_reset hh', applyReset_eq_of_host_eq (s := s'.withHost es) (t := s.withHost es) rfl]
  exact ⟨State.Agree.refl _, _, rfl, ⟨rfl, rfl⟩, rfl, rfl, rfl⟩

/-! ### The handshake (70_reset_and_hazards.md R136) -/

theorem accepts_eq_true_iff {inp : Inputs} {s : State} :
    accepts inp s = true ↔ inp.rst = false ∧ inp.cmdValid = true ∧ s.cmdReady inp.rst = true := by
  refine ⟨fun h => ?_, fun ⟨_, hvalid, hready⟩ => Bool.and_eq_true_iff.mpr ⟨hvalid, hready⟩⟩
  obtain ⟨hrst, hvalid⟩ := rst_and_cmdValid_of_accepts h
  exact ⟨hrst, hvalid, (Bool.and_eq_true_iff.mp h).2⟩

/-- Only a block with nothing in flight accepts (20_memory.md R48). -/
theorem inFlight_of_accepts {inp : Inputs} {s : State} (h : accepts inp s = true) : s.inFlight = none := by
  obtain ⟨-, -, hready⟩ := accepts_eq_true_iff.mp h
  exact Option.isNone_iff_eq_none.mp (Bool.and_eq_true_iff.mp hready).2

/-- A ready block that accepts nothing holds its state (60_exceptions.md R124). -/
theorem edge_of_not_accepts {inp : Inputs} {s : State} (tm : Timing) (hs : s.Ready) (hrst : inp.rst = false)
    (h : accepts inp s = false) : edge tm inp s = .next s := by
  rw [accepts_of_no_flight hrst hs.2] at h
  exact (idleBlockHoldsState s hs).2.2 tm inp hrst h

/-- On an edge that accepts nothing only the level of `rst` matters. -/
theorem edge_eq_of_not_accepts {inp inp' : Inputs} {s : State} (tm : Timing) (h : accepts inp s = false)
    (h' : accepts inp' s = false) (hrst : inp.rst = inp'.rst) : edge tm inp s = edge tm inp' s := by
  cases hr : inp.rst with
  | true => rw [edge_of_rst tm s hr, edge_of_rst tm s (hrst ▸ hr)]
  | false =>
    have hr' : inp'.rst = false := hrst ▸ hr
    cases hf : s.fault with
    | some r => rw [edge_of_fault tm hr hf, edge_of_fault tm hr' hf]
    | none =>
      cases hi : s.inFlight with
      | some f => rw [edge_of_flight tm hr hf hi, edge_of_flight tm hr' hf hi]
      | none => rw [edge_of_not_accepts tm ⟨hf, hi⟩ hr h, edge_of_not_accepts tm ⟨hf, hi⟩ hr' h']

/-- A command that can complete is in flight from the edge that accepts it (70_reset_and_hazards.md R138). -/
theorem acceptEdge_of_exec_next {w : CmdWord} {i : Instr} {s t : State} (tm : Timing) (hd : decode w = .ok i)
    (hx : exec i s = .next t) : acceptEdge tm w s = .next (s.startCommand i (latency tm i)) := by
  simp [acceptEdge, hd, hx]

/-- Settles O39: by what the edge does (resets, stops, counts, accepts or holds), only accepting looks at the word. -/
theorem handshakeAcceptsOnlyWhenReady : Obligations.HandshakeAcceptsOnlyWhenReady := by
  refine fun tm inp inp' s => ⟨accepts_eq_true_iff, edge_eq_of_not_accepts tm,
    fun h hrst hs => edge_of_not_accepts tm hs hrst h, fun h hf i t hd hx => ?accepted⟩
  case accepted =>
    rw [edge_of_accepts tm ⟨hf, inFlight_of_accepts h⟩ h]
    exact acceptEdge_of_exec_next tm hd hx

end Sys2Proof.Machine
end

section
/-! The command in flight: every edge without `rst` counts it down and only the last writes, so a run of edges has the
effect of one transaction-level step. -/

namespace Sys2Proof.Machine

/-! ### Counting down (70_reset_and_hazards.md R138) -/

theorem edge_of_startCommand_succ {x : Inputs} {s : State} (tm : Timing) (i : Instr) (n : Nat) (hrst : x.rst = false)
    (hf : s.fault = none) : edge tm x (s.startCommand i (n + 2)) = .next (s.startCommand i (n + 1)) := by
  rw [edge_of_flight (s := s.startCommand i (n + 2)) tm hrst hf rfl, flightEdge_of_not_last _ (by simp)]
  rfl

theorem edge_of_startCommand_one {x : Inputs} {s : State} (tm : Timing) (i : Instr) (hrst : x.rst = false)
    (hs : s.Ready) : edge tm x (s.startCommand i 1) = exec i s := by
  obtain ⟨hf, hi⟩ := hs
  rw [edge_of_flight (s := s.startCommand i 1) tm hrst hf rfl, flightEdge_of_last _ le_rfl]
  simp [completeInFlight, hf, State.clearInFlight_of_none hi]

theorem runEdges_of_next {tm : Timing} {x : Inputs} {s t : State} (rest : List Inputs) (h : edge tm x s = .next t) :
    runEdges tm (x :: rest) s = runEdges tm rest t := by
  simp [runEdges, h]

theorem runEdges_of_fault {tm : Timing} {x : Inputs} {s : State} {r : Fault} (rest : List Inputs)
    (h : edge tm x s = .fault r) : runEdges tm (x :: rest) s = .fault r := by
  simp [runEdges, h]

/-- Fewer edges than the command has left only count. -/
theorem runEdges_of_lt {tm : Timing} {s : State} {i : Instr} {n : Nat} {rest : List Inputs} (hf : s.fault = none)
    (hrst : ∀ x ∈ rest, x.rst = false) (hn : rest.length < n) :
    runEdges tm rest (s.startCommand i n) = .next (s.startCommand i (n - rest.length)) := by
  induction rest generalizing n with
  | nil => rfl
  | cons x xs ih =>
    obtain ⟨hx, hxs⟩ := List.forall_mem_cons.mp hrst
    rw [List.length_cons] at hn ⊢
    obtain ⟨m, rfl⟩ : ∃ m, n = m + 2 := ⟨n - 2, by omega⟩
    rw [runEdges_of_next xs (edge_of_startCommand_succ tm i m hx hf), ih hxs (by omega)]
    congr 2
    omega

/-- As many edges as the command has left complete it. -/
theorem runEdges_of_length_eq {tm : Timing} {s t : State} {i : Instr} {n : Nat} {rest : List Inputs} (hs : s.Ready)
    (hx : exec i s = .next t) (hrst : ∀ x ∈ rest, x.rst = false) (hn : rest.length = n) (hpos : 1 ≤ n) :
    runEdges tm rest (s.startCommand i n) = .next t := by
  induction rest generalizing n with
  | nil => exact absurd hpos (by simp [← hn])
  | cons x xs ih =>
    obtain ⟨hx', hxs⟩ := List.forall_mem_cons.mp hrst
    obtain rfl : xs.length + 1 = n := hn
    cases hl : xs.length with
    | zero =>
      rw [runEdges_of_next xs ((edge_of_startCommand_one tm i hx' hs).trans hx), List.eq_nil_of_length_eq_zero hl]
      rfl
    | succ m => rw [runEdges_of_next xs (edge_of_startCommand_succ tm i m hx' hs.1), ih hxs hl (by omega)]

/-- A ready block accepts the command presented to it. -/
theorem edge_of_present {inp : Inputs} {s : State} (tm : Timing) (hs : s.Ready) (hrst : inp.rst = false)
    (hvalid : inp.cmdValid = true) : edge tm inp s = acceptEdge tm inp.word s :=
  edge_of_accepts tm hs ((accepts_of_no_flight hrst hs.2).trans hvalid)

/-- Settles O40: a command that can complete does so on its last edge, and one that cannot stops the accepting edge. -/
theorem edgesRefineTheStep : Obligations.EdgesRefineTheStep := by
  intro tm s inp rest i htm hs hrst hvalid hd hlen hrest
  refine ⟨?edges, fun es => step_of_command (s := s.withHost (.command inp.word :: es)) hs rfl hd⟩
  have haccept := edge_of_present tm hs hrst hvalid
  cases hx : exec i s with
  | next t =>
    rw [runEdges_of_next rest (haccept.trans (acceptEdge_of_exec_next tm hd hx))]
    exact runEdges_of_length_eq hs hx hrest hlen (one_le_latency htm i)
  | fault r => exact runEdges_of_fault rest (haccept.trans (acceptEdge_of_exec_fault tm hd hx))
  | refused r => exact absurd hx (exec_ne_refused i s r)

/-! ### The ports in flight (70_reset_and_hazards.md R138) -/

theorem keyValid_startCommand_of_key {i : Instr} (s : State) (n : Nat) (h : readsKeys i = false) :
    (s.startCommand i n).keyValid = false := by
  simp [State.keyValid, State.keyInFlight, h]

theorem keyValid_startCommand_of_block {i : Instr} {s : State} (n : Nat) (hi : s.inFlight = none)
    (h : readsKeys i = true) : (s.startCommand i n).keyValid = s.keyValid := by
  simp [State.keyValid, State.keyInFlight, hi, h]

theorem doutValid_startCommand_of_key {i : Instr} {s : State} (n : Nat) (hi : s.inFlight = none)
    (h : readsKeys i = false) : (s.startCommand i n).doutValid = s.doutValid := by
  simp [State.doutValid, State.blockInFlight, hi, h]

theorem doutValid_startCommand_of_block {i : Instr} (s : State) (n : Nat) (h : readsKeys i = true) :
    (s.startCommand i n).doutValid = false := by
  simp [State.doutValid, State.blockInFlight, h]

theorem observe_dout_of_not_doutValid {s : State} (rst : Bool) (h : s.doutValid = false) :
    observe rst .dout s = .fault .unwrittenRead :=
  if_neg (Bool.eq_false_iff.mp h)

theorem observe_rkBus_of_not_keyValid {s : State} (rst : Bool) (h : s.keyValid = false) :
    observe rst .rkBus s = .fault .unwrittenRead :=
  if_neg (Bool.eq_false_iff.mp h)

/-- The port `dout` shows the result register under its valid port. -/
theorem observe_dout_congr {s t : State} (rst : Bool) (hv : s.doutValid = t.doutValid) (hd : s.dout = t.dout) :
    observe rst .dout s = observe rst .dout t := by
  simp only [observe, hv, hd]

/-- The port `rk_bus` shows the round keys under their valid port. -/
theorem observe_rkBus_congr {s t : State} (rst : Bool) (hv : s.keyValid = t.keyValid) (hk : s.rk = t.rk) :
    observe rst .rkBus s = observe rst .rkBus t := by
  simp only [observe, hv, hk]

/-- Settles O41: the edges so far have only counted, and the command in flight masks one of the two valid ports. -/
theorem inFlightCommandShowsNothing : Obligations.InFlightCommandShowsNothing := by
  intro tm s t inp rest i hs hrst hvalid hd hx hlt hrest
  have haccept := (edge_of_present tm hs hrst hvalid).trans (acceptEdge_of_exec_next tm hd hx)
  refine ⟨s.startCommand i (latency tm i - rest.length),
    (runEdges_of_next rest haccept).trans (runEdges_of_lt hs.1 hrest hlt), rfl, rfl, fun hr => ?key, fun hr => ?block⟩
  case key =>
    have hkv := keyValid_startCommand_of_key s (latency tm i - rest.length) hr
    have hdv := doutValid_startCommand_of_key (latency tm i - rest.length) hs.2 hr
    exact ⟨hkv, observe_rkBus_of_not_keyValid false hkv, hdv, observe_dout_congr false hdv rfl⟩
  case block =>
    have hdv := doutValid_startCommand_of_block s (latency tm i - rest.length) hr
    have hkv := keyValid_startCommand_of_block (latency tm i - rest.length) hs.2 hr
    exact ⟨hdv, observe_dout_of_not_doutValid false hdv, hkv, observe_rkBus_congr false hkv rfl⟩

end Sys2Proof.Machine
end

section
/-! Runs of a dutiful host: on a ready block each element that keeps its duty leaves a ready block with the flags read
off the list, and the host's list itself plays no part in it. -/

namespace Sys2Proof.Machine

/-! ### Elements taken from any list (log 6) -/

theorem exec_withHost_of_next {i : Instr} {s t : State} (es : List HostEvent) (h : exec i s = .next t) :
    exec i (s.withHost es) = .next (t.withHost es) := by
  cases hr : readsKeys i with
  | false =>
    obtain ⟨k, rfl⟩ := eq_key_of_not_readsKeys hr
    rw [eq_loadKeys_of_exec_key h]
    rfl
  | true =>
    obtain ⟨f, hf⟩ := exec_of_readsKeys hr
    have hk := kv_of_exec_next h hr
    rw [hf, blockCommand_of_keys f hk] at h
    rw [hf, blockCommand_of_keys (s := s.withHost es) f hk, ← Host.Outcome.next.inj h]
    rfl

theorem takeRead_withHost_of_next {p : OutPort} {s t : State} (es : List HostEvent) (h : takeRead p s = .next t) :
    takeRead p (s.withHost es) = .next (t.withHost es) := by
  obtain ⟨v, hv, -⟩ | ⟨r, -, hr⟩ := takeRead_cases p s
  · rw [takeRead_next h]
    exact takeRead_of_observe_next ((observe_withHost false p s es).trans hv)
  · simp [hr] at h

theorem stepEvent_withHost_of_next {e : HostEvent} {s t : State} (es : List HostEvent) (h : stepEvent e s = .next t) :
    stepEvent e (s.withHost es) = .next (t.withHost es) := by
  cases e with
  | reset => rw [← Host.Outcome.next.inj h]; rfl
  | command w =>
    obtain ⟨hf, i, hd, hx⟩ := takeCommand_eq_next.mp h
    exact takeCommand_eq_next.mpr ⟨hf, i, hd, exec_withHost_of_next es hx⟩
  | read p => exact takeRead_withHost_of_next es h

/-! ### The block after an element -/

theorem exec_keeps_ready {i : Instr} {s t : State} (hs : s.Ready) (h : exec i s = .next t) : t.Ready := by
  obtain ⟨k, -, rfl⟩ | ⟨-, -, v, rfl⟩ := exec_next h
  · exact hs
  · exact hs

theorem stepEvent_keeps_ready {e : HostEvent} {s t : State} (hs : s.Ready) (h : stepEvent e s = .next t) : t.Ready := by
  cases e with
  | reset => rw [← Host.Outcome.next.inj h]; exact ⟨rfl, rfl⟩
  | command w =>
    obtain ⟨-, i, -, hx⟩ := takeCommand_eq_next.mp h
    exact exec_keeps_ready hs hx
  | read p => exact takeRead_next h ▸ hs

theorem flagsAfter_of_key {w : CmdWord} {k : U8} (kv dv : Bool) (hd : decode w = .ok (.key k)) :
    (HostEvent.command w).flagsAfter kv dv = (true, dv) := by
  simp [HostEvent.flagsAfter, hd]

theorem flagsAfter_of_block {w : CmdWord} {i : Instr} (kv dv : Bool) (hd : decode w = .ok i)
    (hr : readsKeys i = true) : (HostEvent.command w).flagsAfter kv dv = (kv, true) := by
  cases i with
  | key k => simp [readsKeys] at hr
  | enc x => simp [HostEvent.flagsAfter, hd]
  | dec y => simp [HostEvent.flagsAfter, hd]

/-- The flags read off the list are those of the block. -/
theorem flagsAfter_of_stepEvent {e : HostEvent} {s t : State} (h : stepEvent e s = .next t) :
    e.flagsAfter s.kv s.dv = (t.kv, t.dv) := by
  cases e with
  | reset => rw [← Host.Outcome.next.inj h]; rfl
  | command w =>
    obtain ⟨-, i, hd, hx⟩ := takeCommand_eq_next.mp h
    obtain ⟨k, rfl, rfl⟩ | ⟨hr, -, v, rfl⟩ := exec_next hx
    · exact flagsAfter_of_key s.kv s.dv hd
    · exact flagsAfter_of_block s.kv s.dv hd hr
  | read p => rw [takeRead_next h]; rfl

theorem keepsDuties_of_next {e : HostEvent} {s t : State} (es : List HostEvent) (hd : e.duty s.kv s.dv = true)
    (h : stepEvent e s = .next t) : keepsDuties s.kv s.dv (e :: es) = keepsDuties t.kv t.dv es := by
  simp [keepsDuties, hd, flagsAfter_of_stepEvent h]

theorem keepsDuties_of_broken_duty {e : HostEvent} {kv dv : Bool} (es : List HostEvent) (hd : e.duty kv dv = false) :
    keepsDuties kv dv (e :: es) = false := by
  simp [keepsDuties, hd]

/-! ### Runs -/

/-- The step of a block that has the element next in its list. -/
theorem step_withHost_cons {s : State} (e : HostEvent) (es : List HostEvent) (hi : s.inFlight = none) :
    step (s.withHost (e :: es)) = stepEvent e (s.withHost es) :=
  step_of_event (s := s.withHost (e :: es)) rfl hi

theorem run_withHost_of_next {e : HostEvent} {s t : State} (es : List HostEvent) (hi : s.inFlight = none)
    (h : stepEvent e s = .next t) :
    Host.Core.run Sys2Proof.core (e :: es).length (s.withHost (e :: es)) =
      Host.Core.run Sys2Proof.core es.length (t.withHost es) :=
  run_of_next es.length ((step_withHost_cons e es hi).trans (stepEvent_withHost_of_next es h))

theorem run_withHost_of_broken_duty {e : HostEvent} {s : State} (es : List HostEvent) (hs : s.Ready)
    (h : e.duty s.kv s.dv = false) :
    ∃ r, Host.Core.run Sys2Proof.core (e :: es).length (s.withHost (e :: es)) = .fault r := by
  obtain ⟨r, hr, -⟩ := stepEvent_of_broken_duty (s := s.withHost es) hs.1 h
  exact ⟨r, run_of_fault es.length ((step_withHost_cons e es hs.2).trans hr)⟩

/-- Settles O35, by induction on the list: an element that keeps its duty leaves a ready block on which the rest of the
list has the same duties, and one that breaks it ends the run. -/
theorem dutifulHostNeverFaults : Obligations.DutifulHostNeverFaults := by
  intro s es hs
  induction es generalizing s with
  | nil => exact ⟨⟨fun _ => ⟨_, rfl⟩, fun _ => rfl⟩, fun t ht => Host.Outcome.next.inj ht ▸ ⟨hs, rfl, rfl⟩⟩
  | cons e es ih =>
    cases hd : e.duty s.kv s.dv with
    | true =>
      obtain ⟨t, ht⟩ := stepEvent_of_duty hs hd
      rw [keepsDuties_of_next es hd ht, run_withHost_of_next es hs.2 ht, runHost_of_next es ht]
      exact ih t (stepEvent_keeps_ready hs ht)
    | false =>
      obtain ⟨r, hr⟩ := run_withHost_of_broken_duty es hs hd
      rw [keepsDuties_of_broken_duty es hd, hr]
      simp

end Sys2Proof.Machine
end
